-- ==== Sys2Proof/Word.lean ====
section
/-! DEFINITION. The word types of FDBIC: unsigned bit vectors of a stated width, bit 0 least significant
(`00_scope.md` R6; `ADDR_W = HDATA_W = 32`, R4). -/

namespace Sys2Proof

/-- Eight bits: a command byte, one lane of the data pins. -/
abbrev Byte := BitVec 8

/-- Sixteen bits: the data pins `D[15:0]`. -/
abbrev Half := BitVec 16

/-- Thirty-two bits: a host address, host data, a configuration register. -/
abbrev Word := BitVec 32

/-- The 7-bit operation word `op` of `30_encoding.md` R51. -/
abbrev OpWord := BitVec 7

end Sys2Proof
end

