-- ==== Sys2Proof/Config.lean ====
section
/-! DEFINITION. What an implementation fixes (`00_scope.md` R4, R5) and the free values.

The OPEN parameters are a record `Params` that the machine takes as data; no definition assumes a value for one of
them. The field widths `ADDSET_W = 4`, `DATAST_W = 8`, `BUSTURN_W = 4` are decided by R4 and are the widths of
`TimingSet`'s fields (Machine/State.lean). -/

namespace Sys2Proof

/-- A bus width, 8 or 16 bits (`BCR.MWID`, `DPINS`). -/
inductive BusWidth where
  | w8
  | w16
  deriving DecidableEq, Repr

/-- The number of data lines of a bus width. -/
def BusWidth.bits : BusWidth → Nat
  | .w8 => 8
  | .w16 => 16

/-- `BYTE_FILL` (R4, D9): what an 8-bit write puts on `D[15:8]` of a 16-bit bus. -/
inductive ByteFill where
  | zero
  | dup
  deriving DecidableEq, Repr

/-- The OPEN parameters of the hardware (`00_scope.md` R4). -/
structure Params where
  /-- `BANK_BASE`: first host byte address of the bank window. -/
  bankBase : Word
  /-- `WINDOW_BITS`: log2 of the window's size in bytes. -/
  windowBits : Nat
  /-- `RS_BIT`: index of the host byte-address bit that drives the register-select line. -/
  rsBit : Nat
  /-- `CFG_BASE`: first host byte address of the 16-byte configuration block. -/
  cfgBase : Word
  /-- `BYTE_FILL`. -/
  byteFill : ByteFill
  /-- `DPINS`: number of data pins bound to the controller. -/
  dpins : BusWidth
  deriving DecidableEq, Repr

namespace Params

/-- First byte address after the bank window, as a number. -/
def windowEnd (p : Params) : Nat := p.bankBase.toNat + 2 ^ p.windowBits

/-- `00_scope.md` R5 (a) to (d): what every parameter assignment must meet. -/
abbrev Valid (p : Params) : Prop :=
  p.bankBase.toNat % 2 ^ p.windowBits = 0 ∧
  (p.rsBit < p.windowBits ∧ p.windowBits ≤ 32) ∧
  (p.cfgBase.toNat % 16 = 0 ∧
    (p.cfgBase.toNat + 16 ≤ p.bankBase.toNat ∨ p.windowEnd ≤ p.cfgBase.toNat)) ∧
  (p.cfgBase.toNat + 16 ≤ 2 ^ 32 ∧ p.windowEnd ≤ 2 ^ 32)

/-- `00_scope.md` R5 (e): 16-bit accesses can reach the data address. -/
abbrev Reaches16 (p : Params) : Prop := 1 ≤ p.rsBit

end Params

/-- The parameter set `T0` of D38, an illustration of the spec, with `BYTE_FILL = ZERO` (D38 gives none).
DESIGN CHOICE, unsafe for a claim about this one set (log 1): `State.reset` and the host's table words need one
concrete machine. No claim of Certificates/ rests on it: claims hold for every `Params`. -/
def Config.reference : Params where
  bankBase := 0x60000000#32
  windowBits := 26
  rsBit := 17
  cfgBase := 0xA0000000#32
  byteFill := .zero
  dpins := .w16

/-- The parameter set `T1` of D38 (8-bit bus), used by tests only. -/
def Config.reference8 : Params where
  bankBase := 0x60000000#32
  windowBits := 26
  rsBit := 16
  cfgBase := 0xA0000000#32
  byteFill := .zero
  dpins := .w8

/-- FREE VALUE (R24, R80, U4, D26; log 2): what is on `D[15:0]` when FDBIC samples it, for the `k`-th state of the
device. It has no body: nothing can be proved about its values, so a claim holds whatever the device drives, or if
nothing drives the pins. -/
opaque Config.deviceDrives : Nat → Half

end Sys2Proof
end

