-- ==== Sys2Proof/Syntax.lean ====
section
/-! DEFINITION. The request record of the host port and the 14 operations (`30_encoding.md` R50, R53, R56).

An operation is written `MNEMONIC addr[, value]` (R56): it carries the full host address, since the bits the
operation word does not hold are used by the alignment check and the trace (R51), and for a write the 32 bits of
`wdata`. A read's `wdata` is ignored (R50) and is no operand (log 14). -/

namespace Sys2Proof

/-- `req_size` (R50): `0b00` 8-bit, `0b01` 16-bit, `0b10` 32-bit, `0b11` reserved. -/
inductive Size where
  | b8
  | b16
  | b32
  | reserved
  deriving DecidableEq, Repr

/-- The request record `REQ` (R50); it has no other attribute. -/
structure Request where
  write : Bool
  size : Size
  addr : Word
  wdata : Word
  deriving DecidableEq, Repr

/-- The three configuration registers (`10_state.md` R14); register number 3 is reserved and is no register. -/
inductive ConfigReg where
  | bcr
  | rtr
  | wtr
  deriving DecidableEq, Repr

/-- The 14 legal operations, one constructor per row of the opcode table (R53). -/
inductive Instr where
  | cfgrdBcr (addr : Word)
  | cfgrdRtr (addr : Word)
  | cfgrdWtr (addr : Word)
  | cfgwrBcr (addr wdata : Word)
  | cfgwrRtr (addr wdata : Word)
  | cfgwrWtr (addr wdata : Word)
  | rdcmd8 (addr : Word)
  | rddat8 (addr : Word)
  | rdcmd16 (addr : Word)
  | rddat16 (addr : Word)
  | wrcmd8 (addr wdata : Word)
  | wrdat8 (addr wdata : Word)
  | wrcmd16 (addr wdata : Word)
  | wrdat16 (addr wdata : Word)
  deriving DecidableEq, Repr

/-- The software value of a timing set (`40_config_access.md` R68): unsigned integers of any size. -/
structure TimingParameters where
  addressSetup : Nat
  dataSetup : Nat
  busTurnaround : Nat
  deriving DecidableEq, Repr

end Sys2Proof
end

