-- ==== Sys2Proof/WellFormed.lean ====
section
/-! DEFINITION. Which instructions are requests of this hardware (`30_encoding.md` R56: "the address must decode to
the same `op`"), said by address ranges (`10_state.md` R14, R27; `20_memory.md` R31, R32) and not by the decoder's
slices, so that "decode and encode agree" compares two descriptions. Alignment is no part of it: a misaligned legal
operation is an instruction that ends in an error response (R54). -/

namespace Sys2Proof

/-- The address lies in the word of configuration register number `k` (R14: `CFG_BASE + 4k`). -/
def inConfigWord (p : Params) (k : Nat) (addr : Word) : Bool :=
  decide (p.cfgBase.toNat + 4 * k ≤ addr.toNat) && decide (addr.toNat < p.cfgBase.toNat + 4 * k + 4)

/-- The address lies in the bank window (R27). -/
def inWindow (p : Params) (addr : Word) : Bool :=
  decide (p.bankBase.toNat ≤ addr.toNat) && decide (addr.toNat < p.windowEnd)

/-- The address bit `RS_BIT` as a number is the register-select value (R32, R51). -/
def selects (p : Params) (rs : Bool) (addr : Word) : Bool :=
  addr.toNat / 2 ^ p.rsBit % 2 == (if rs then 1 else 0)

/-- A bank address with the given register-select value. -/
def inBank (p : Params) (rs : Bool) (addr : Word) : Bool := inWindow p addr && selects p rs addr

/-- The well-formed instructions under the parameters `p`. -/
def Instr.wellFormed (p : Params) : Instr → Bool
  | .cfgrdBcr a => inConfigWord p 0 a
  | .cfgrdRtr a => inConfigWord p 1 a
  | .cfgrdWtr a => inConfigWord p 2 a
  | .cfgwrBcr a _ => inConfigWord p 0 a
  | .cfgwrRtr a _ => inConfigWord p 1 a
  | .cfgwrWtr a _ => inConfigWord p 2 a
  | .rdcmd8 a => inBank p false a
  | .rddat8 a => inBank p true a
  | .rdcmd16 a => inBank p false a
  | .rddat16 a => inBank p true a
  | .wrcmd8 a _ => inBank p false a
  | .wrdat8 a _ => inBank p true a
  | .wrcmd16 a _ => inBank p false a
  | .wrdat16 a _ => inBank p true a

end Sys2Proof
end

