-- ==== Sys2Proof/Decode.lean ====
section
/-! DEFINITION. The peripheral address decoder (`20_memory.md` R30, R31), the operation word (`30_encoding.md` R51),
the opcode map (R53, R54), the decoder of a 67-bit request, and the encoder. -/

namespace Sys2Proof

/-! ### Address decoder -/

/-- The three answers of the address decoder (R30). -/
inductive Region where
  | cfg (reg : BitVec 2)
  | bank (rs : Bool)
  | outside
  deriving DecidableEq, Repr

/-- R30: the configuration block, then the bank window, then neither. A slice `a[31:k]` is compared as `a >>> k`. -/
def decodeAddress (p : Params) (a : Word) : Region :=
  if a >>> 4 = p.cfgBase >>> 4 then .cfg (a.extractLsb' 2 2)
  else if a >>> p.windowBits = p.bankBase >>> p.windowBits then .bank (a.getLsbD p.rsBit)
  else .outside

/-- R31: the command address. -/
def commandAddress (p : Params) : Word := p.bankBase

/-- R31: the data address, one address-line weight higher. -/
def dataAddress (p : Params) : Word := p.bankBase + 1#32 <<< p.rsBit

/-- The address software uses for a register-select value. -/
def portAddress (p : Params) (rs : Bool) : Word := if rs then dataAddress p else commandAddress p

/-- R14: the host address of configuration register number `k`. -/
def configAddress (p : Params) (k : BitVec 2) : Word := p.cfgBase + (k.setWidth 32) <<< 2

/-! ### Request bits -/

/-- R50: the size code. -/
def Size.toBits : Size → BitVec 2
  | .b8 => 0b00#2
  | .b16 => 0b01#2
  | .b32 => 0b10#2
  | .reserved => 0b11#2

/-- R50: the size of a code. -/
def Size.ofBits (b : BitVec 2) : Size :=
  if b = 0b00#2 then .b8 else if b = 0b01#2 then .b16 else if b = 0b10#2 then .b32 else .reserved

/-- R50: the 67 bits of a request: bit 66 `write`, 65:64 `size`, 63:32 `addr`, 31:0 `wdata`. -/
def Request.toBits (r : Request) : BitVec 67 :=
  (BitVec.ofBool r.write).setWidth 67 <<< 66 ||| r.size.toBits.setWidth 67 <<< 64
    ||| r.addr.setWidth 67 <<< 32 ||| r.wdata.setWidth 67

/-- R50: the fields of 67 bits. -/
def Request.ofBits (b : BitVec 67) : Request where
  write := b.getLsbD 66
  size := Size.ofBits (b.extractLsb' 64 2)
  addr := b.extractLsb' 32 32
  wdata := b.extractLsb' 0 32

/-- R51: `region` and `sub`, by region. -/
def Region.regionBits : Region → BitVec 2
  | .outside => 0b00#2
  | .cfg _ => 0b01#2
  | .bank _ => 0b10#2

/-- R51: the low two bits of the operation word. -/
def Region.subBits : Region → BitVec 2
  | .outside => 0b00#2
  | .cfg k => k
  | .bank rs => if rs then 0b01#2 else 0b00#2

/-- R51: the operation word of its four fields: bits 6:5 `region`, 4 `write`, 3:2 `size`, 1:0 `sub`. -/
def packOp (region : BitVec 2) (write : Bool) (size sub : BitVec 2) : OpWord :=
  region.setWidth 7 <<< 5 ||| (BitVec.ofBool write).setWidth 7 <<< 4 ||| size.setWidth 7 <<< 2 ||| sub.setWidth 7

/-- R51: the operation word the address decoder derives from a request. -/
def opWord (p : Params) (r : Request) : OpWord :=
  packOp (decodeAddress p r.addr).regionBits r.write r.size.toBits (decodeAddress p r.addr).subBits

/-! ### Opcode map -/

/-- One row of the opcode map: `op &&& mask = pattern` selects it. -/
structure OpRow where
  name : String
  pattern : OpWord
  mask : OpWord
  build : Word → Word → Instr

/-- The configuration rows of R53. -/
def configRows : List OpRow :=
  [ ⟨"CFGRD.BCR", 0x28#7, 0x7F#7, fun a _ => .cfgrdBcr a⟩,
    ⟨"CFGRD.RTR", 0x29#7, 0x7F#7, fun a _ => .cfgrdRtr a⟩,
    ⟨"CFGRD.WTR", 0x2A#7, 0x7F#7, fun a _ => .cfgrdWtr a⟩,
    ⟨"CFGWR.BCR", 0x38#7, 0x7F#7, fun a v => .cfgwrBcr a v⟩,
    ⟨"CFGWR.RTR", 0x39#7, 0x7F#7, fun a v => .cfgwrRtr a v⟩,
    ⟨"CFGWR.WTR", 0x3A#7, 0x7F#7, fun a v => .cfgwrWtr a v⟩ ]

/-- The bank rows of R53. -/
def bankRows : List OpRow :=
  [ ⟨"RDCMD8", 0x40#7, 0x7F#7, fun a _ => .rdcmd8 a⟩,
    ⟨"RDDAT8", 0x41#7, 0x7F#7, fun a _ => .rddat8 a⟩,
    ⟨"RDCMD16", 0x44#7, 0x7F#7, fun a _ => .rdcmd16 a⟩,
    ⟨"RDDAT16", 0x45#7, 0x7F#7, fun a _ => .rddat16 a⟩,
    ⟨"WRCMD8", 0x50#7, 0x7F#7, fun a v => .wrcmd8 a v⟩,
    ⟨"WRDAT8", 0x51#7, 0x7F#7, fun a v => .wrdat8 a v⟩,
    ⟨"WRCMD16", 0x54#7, 0x7F#7, fun a v => .wrcmd16 a v⟩,
    ⟨"WRDAT16", 0x55#7, 0x7F#7, fun a v => .wrdat16 a v⟩ ]

/-- The opcode map of R53, 14 rows. -/
def opTable : List OpRow := configRows ++ bankRows

/-- R53: the row an operation word selects. -/
def lookupOp (op : OpWord) : Option OpRow := opTable.find? fun row => op &&& row.mask == row.pattern

/-! ### Decoder -/

/-- Why a request is none of the 14 operations (R54). -/
inductive Reject where
  /-- region `NONE`: not FDBIC's request. -/
  | outsideRegions
  /-- configuration block, size not 32 bits. -/
  | configSize
  /-- configuration block, 32-bit access in register number 3. -/
  | reservedRegister
  /-- bank window, 32-bit or reserved size. -/
  | bankSize
  deriving DecidableEq, Repr

/-- R54: the name under which a request without a row is rejected. -/
def rejectReason (p : Params) (r : Request) : Reject :=
  match decodeAddress p r.addr with
  | .outside => .outsideRegions
  | .cfg _ => if r.size = .b32 then .reservedRegister else .configSize
  | .bank _ => .bankSize

/-- The decoder of a request: the operation of R53, or the reason of R54. -/
def decodeRequest (p : Params) (r : Request) : Except Reject Instr :=
  match lookupOp (opWord p r) with
  | some row => .ok (row.build r.addr r.wdata)
  | none => .error (rejectReason p r)

/-- The decoder of the 67 bits of R50, total. -/
def decodeBits (p : Params) (b : BitVec 67) : Except Reject Instr := decodeRequest p (Request.ofBits b)

/-! ### Encoder -/

/-- R53: the operation word of an instruction (the table's `match` column). -/
def Instr.opcode : Instr → OpWord
  | .cfgrdBcr _ => 0x28#7
  | .cfgrdRtr _ => 0x29#7
  | .cfgrdWtr _ => 0x2A#7
  | .cfgwrBcr _ _ => 0x38#7
  | .cfgwrRtr _ _ => 0x39#7
  | .cfgwrWtr _ _ => 0x3A#7
  | .rdcmd8 _ => 0x40#7
  | .rddat8 _ => 0x41#7
  | .rdcmd16 _ => 0x44#7
  | .rddat16 _ => 0x45#7
  | .wrcmd8 _ _ => 0x50#7
  | .wrdat8 _ _ => 0x51#7
  | .wrcmd16 _ _ => 0x54#7
  | .wrdat16 _ _ => 0x55#7

/-- The host address of an instruction. -/
def Instr.addr : Instr → Word
  | .cfgrdBcr a => a
  | .cfgrdRtr a => a
  | .cfgrdWtr a => a
  | .cfgwrBcr a _ => a
  | .cfgwrRtr a _ => a
  | .cfgwrWtr a _ => a
  | .rdcmd8 a => a
  | .rddat8 a => a
  | .rdcmd16 a => a
  | .rddat16 a => a
  | .wrcmd8 a _ => a
  | .wrdat8 a _ => a
  | .wrcmd16 a _ => a
  | .wrdat16 a _ => a

/-- The write value of an instruction; a read has none and its `wdata`, which is ignored (R50), is encoded as 0. -/
def Instr.wdata : Instr → Word
  | .cfgrdBcr _ => 0
  | .cfgrdRtr _ => 0
  | .cfgrdWtr _ => 0
  | .cfgwrBcr _ v => v
  | .cfgwrRtr _ v => v
  | .cfgwrWtr _ v => v
  | .rdcmd8 _ => 0
  | .rddat8 _ => 0
  | .rdcmd16 _ => 0
  | .rddat16 _ => 0
  | .wrcmd8 _ v => v
  | .wrdat8 _ v => v
  | .wrcmd16 _ v => v
  | .wrdat16 _ v => v

/-- The request of an instruction: direction and size are bits 4 and 3:2 of its operation word (R51). -/
def Instr.request (i : Instr) : Request where
  write := i.opcode.getLsbD 4
  size := Size.ofBits (i.opcode.extractLsb' 2 2)
  addr := i.addr
  wdata := i.wdata

/-- R51: the instruction is a bank operation (region bits `0b10`). -/
def Instr.isBank (i : Instr) : Bool := i.opcode.extractLsb' 5 2 == 0b10#2

/-- R51: the register-select bit of a bank operation's word (bit 0). -/
def Instr.rsBit (i : Instr) : Bool := i.opcode.getLsbD 0

/-- The 67 bits of an instruction. -/
def encode (i : Instr) : BitVec 67 := i.request.toBits

/-- R56: the written name of an instruction's operation. -/
def Instr.mnemonic (i : Instr) : String :=
  match lookupOp i.opcode with
  | some row => row.name
  | none => ""

/-! ### Words of the opcode table -/

/-- The request of a bare operation word, its operands zero: a configuration word addresses its register's word, a
bank word the port address of its register-select bit (R31, R51), `wdata` is 0. Words the decoder never produces
(R54) and words of region `NONE` have none. DESIGN CHOICE (log 9). -/
def requestOfOp (p : Params) (op : OpWord) : Option Request :=
  let write := op.getLsbD 4
  let size := Size.ofBits (op.extractLsb' 2 2)
  let sub : BitVec 2 := op.extractLsb' 0 2
  if op.extractLsb' 5 2 = 0b01#2 then
    some { write := write, size := size, addr := configAddress p sub, wdata := 0 }
  else if op.extractLsb' 5 2 = 0b10#2 ∧ op.getLsbD 1 = false then
    some { write := write, size := size, addr := portAddress p (op.getLsbD 0), wdata := 0 }
  else none

/-- The request of a table word `w` of `nbits` bits (7 bits in one whole byte; R55: one length). -/
def requestOfTableWord (p : Params) (nbits w : Nat) : Option Request :=
  if nbits ≤ 8 ∧ w < 128 then requestOfOp p (BitVec.ofNat 7 w) else none

/-- The instruction the decoder reads from the operation word `w` of the opcode table, under the reference
parameters (the ones `State.reset` carries). -/
def decodeTableWord (nbits w : Nat) : Option Instr :=
  match requestOfTableWord Config.reference nbits w with
  | some r => (decodeRequest Config.reference r).toOption
  | none => none

end Sys2Proof
end

