-- ==== Sys2Proof/Machine/State.lean ====
section
/-! DEFINITION. The state of FDBIC and of what stands around it (`10_state.md`, `00_scope.md` R8, R9), as plain data. -/

namespace Sys2Proof.Machine

/-- The causes of an error response (`60_exceptions.md` R121), labels for the model and the reader: the hardware
sends one bit. Each is raised by `cfgCheck` or `bankCheck` (Machine/Ops.lean) in the order of R124 and ends in a next
state whose response log holds it (log 3): no step of this machine stops with a fault. -/
inductive Fault where
  /-- `E_SIZE`, 1: configuration access not 32 bits wide, bank access 32 bits wide or of reserved size. Raised by
  `cfgCheck`, `bankCheck`. Safe: the spec's own answer. -/
  | size
  /-- `E_ALIGN`, 2: configuration access with `addr[1:0] ≠ 0`, 16-bit bank access with `addr[0] = 1`. Raised by
  `cfgCheck`, `bankCheck`. Safe. -/
  | align
  /-- `E_RESERVED`, 3: configuration register number 3. Raised by `cfgCheck`. Safe. -/
  | reserved
  /-- `E_DISABLED`, 4: bank access while `BCR.EN = 0`. Raised by `bankCheck`. Safe. -/
  | disabled
  /-- `E_CONFIG`, 5: bank access while `BCR.EN = 1` and `BCR` is not legal. Raised by `bankCheck`. Safe. -/
  | config
  /-- `E_WIDTH`, 6: 16-bit bank access on an 8-bit bus. Raised by `bankCheck`. Safe. -/
  | width
  deriving DecidableEq, Repr

/-- Where the model gives a step no meaning. -/
inductive Refusal where
  /-- An instruction without a meaning, rejected by its mnemonic in `exec`. Safe. Raised by no arm of this model. -/
  | notModelled (mnemonic : String)
  /-- A presented request whose address is in neither region (`20_memory.md` R30: "a model must refuse such a
  request"). Raised by `step`. Safe. -/
  | outsideRegions
  /-- The host does not hold, or has changed, the request of the transfer in flight (U16, D37: "no behaviour given").
  Raised by `clockEdge`. Safe. -/
  | requestNotHeld
  deriving DecidableEq, Repr

/-- `phase` of the sequencer (`10_state.md` R21, `43_sequencer.md` R90). -/
inductive Phase where
  | idle
  | addr
  | data
  | turn
  deriving DecidableEq, Repr

/-- Where reset stands (`70_reset_and_hazards.md` R140): its values hold while `rst_n = 0` and, after that, at the first
rising edge of `clk`. -/
inductive ResetStage where
  /-- `rst_n = 0`. -/
  | asserted
  /-- `rst_n = 1` again, and the first rising edge since then is still to come. -/
  | released
  /-- `rst_n = 1`, and that edge has come: FDBIC serves requests. -/
  | over
  deriving DecidableEq, Repr

/-- A timing set `{BUSTURN[3:0], DATAST[7:0], ADDSET[3:0]}` (`10_state.md` R17, R21): counts of bus clock cycles. -/
structure TimingSet where
  addset : BitVec 4
  datast : BitVec 8
  busturn : BitVec 4
  deriving DecidableEq, Repr

/-- The transfer latch `cur` (`10_state.md` R21). -/
structure TransferLatch where
  write : Bool
  rs : Bool
  n : BusWidth
  dout : Half
  addr : Word
  t : TimingSet
  deriving DecidableEq, Repr

/-- The value on the data pins of a bus: `D[7:0]` on an 8-bit bus, `D[15:0]` on a 16-bit bus. -/
inductive PinData where
  | d8 (v : Byte)
  | d16 (v : Half)
  deriving DecidableEq, Repr

/-- The direction of a bus cycle: `W` or `R` (`00_scope.md` R9). -/
inductive BusKind where
  | write
  | read
  deriving DecidableEq, Repr

/-- One event of the bus trace (`00_scope.md` R9); the width `n` is that of `data`. -/
structure BusEvent where
  kind : BusKind
  rs : Bool
  addr : Word
  data : PinData
  tset : TimingSet
  deriving DecidableEq, Repr

/-- The response to one request (`10_state.md` R23, `60_exceptions.md` R120). An error response carries no value. -/
inductive Response where
  /-- `OKAY()` of a write. -/
  | written
  /-- `OKAY(v)` of a read. -/
  | value (v : Word)
  /-- The error response. -/
  | error (cause : Fault)
  deriving DecidableEq, Repr

/-- The whole state. `bcr`, `rtr`, `wtr`, `phase`, `cnt`, `cur` are the hardware (R10); `trace` and `responses` are
ghost (R9, R152); `host`, `rst` and `dev` are the agents around it (R8, R23); `params` and `cycle` are the model's
own (log 1, log 7). -/
structure State where
  /-- The OPEN parameters; no step changes them (log 1). -/
  params : Params
  /-- The reset input `rst_n` (R23) and whether its return to 1 has been clocked in (R140, log 22). -/
  rst : ResetStage
  /-- Requests the host still has to issue; the first is presented on the port (`req_valid`), held until its
  response (R23, R152). -/
  host : List Request
  /-- Bank control register. -/
  bcr : Word
  /-- Read timing register. -/
  rtr : Word
  /-- Write timing register. -/
  wtr : Word
  phase : Phase
  /-- Clock cycles still to spend in `phase` after the current one. -/
  cnt : BitVec 8
  cur : TransferLatch
  /-- Index of the device's present state into the free values (R24, log 2). -/
  dev : Nat
  /-- Bus cycles performed since reset, oldest first. -/
  trace : List BusEvent
  /-- Responses the host has received since reset, oldest first. -/
  responses : List Response
  /-- Clock cycles since reset (ghost). -/
  cycle : Nat
  deriving DecidableEq, Repr

/-- The transfer latch after reset (`10_state.md` R26). -/
def TransferLatch.reset : TransferLatch where
  write := false
  rs := false
  n := .w8
  dout := 0
  addr := 0
  t := { addset := 0, datast := 0, busturn := 0 }

/-- The state right after reset of a machine with the parameters `p` (`10_state.md` R26, `70_reset_and_hazards.md`
R140), the first rising edge after the return of `rst_n` behind it: the start of cycle 0 of the programs of
`95_test_vectors.md` L3 (log 22). `host`, `dev`, `responses` and `cycle` are the model's (log 2, 5, 7). -/
def State.resetFor (p : Params) : State where
  params := p
  rst := .over
  host := []
  bcr := 0x00000000#32
  rtr := 0x000FFF0F#32
  wtr := 0x000FFF0F#32
  phase := .idle
  cnt := 0
  cur := TransferLatch.reset
  dev := 0
  trace := []
  responses := []
  cycle := 0

/-- The machine right after reset, with the reference parameters (log 1). -/
def State.reset : State := State.resetFor Config.reference

/-- The sequencer is idle and reset is over: a presented request is looked at (R91, R103, R104). -/
abbrev State.Ready (s : State) : Prop := s.rst = .over ∧ s.phase = .idle

end Sys2Proof.Machine
end

