-- ==== Sys2Proof/Machine/Flags.lean ====
section
/-! DEFINITION. FDBIC has no status flags and no condition codes (`10_state.md` R13), so no instruction computes one.
What stands here are the control bits of `BCR` (`10_state.md` R15, R16). -/

namespace Sys2Proof.Machine

/-- `BCR.EN`, bit 0: the bank window is live. -/
def bcrEn (b : Word) : Bool := b.getLsbD 0

/-- `BCR.MUX`, bit 1. -/
def bcrMux (b : Word) : Bool := b.getLsbD 1

/-- `BCR.MTYP`, bits 3:2. -/
def bcrMtyp (b : Word) : BitVec 2 := b.extractLsb' 2 2

/-- `BCR.MWID`, bits 5:4. -/
def bcrMwid (b : Word) : BitVec 2 := b.extractLsb' 4 2

/-- R16: `MUX = 0`, `MTYP = 0b00` and `MWID` is `0b00` or `0b01`. -/
def bcrLegal (b : Word) : Bool := !bcrMux b && bcrMtyp b == 0b00#2 && (bcrMwid b == 0b00#2 || bcrMwid b == 0b01#2)

/-- R70: the bus width `n` of a legal `BCR`. -/
def bcrWidth (b : Word) : BusWidth := if bcrMwid b = 0b00#2 then .w8 else .w16

end Sys2Proof.Machine
end

