-- ==== Sys2Proof/Machine/Operands.lean ====
section
/-! DEFINITION. Operand forms: register masks (`10_state.md` R19), timing fields (R17, R18), data lanes
(`30_encoding.md` R52), `timing_word` (`40_config_access.md` R68), phase lengths (`43_sequencer.md` R97). -/

namespace Sys2Proof.Machine

/-! ### Registers -/

/-- R19: the bits of a register that a write stores. -/
def regMask : ConfigReg → Word
  | .bcr => 0x0000003F#32
  | .rtr => 0x000FFF0F#32
  | .wtr => 0x000FFF0F#32

/-- R14: the register of a register number; number 3 is reserved. -/
def regOfNumber (k : BitVec 2) : Option ConfigReg :=
  if k = 0#2 then some .bcr else if k = 1#2 then some .rtr else if k = 2#2 then some .wtr else none

/-- R17, R18: the timing set of a timing register. -/
def timingOf (w : Word) : TimingSet where
  addset := w.extractLsb' 0 4
  datast := w.extractLsb' 8 8
  busturn := w.extractLsb' 16 4

/-- R97: cycles from the accept cycle through the response cycle inclusive. -/
def TimingSet.latency (t : TimingSet) : Nat := t.addset.toNat + t.datast.toNat + 2

/-- R97: cycles from the accept cycle to the first cycle in which the next request can be accepted. -/
def TimingSet.period (t : TimingSet) : Nat := t.latency + t.busturn.toNat

/-- R68: the register word of a software timing triple, each count cut to its field. -/
def timingWord (tp : TimingParameters) : Word :=
  (BitVec.ofNat 4 tp.addressSetup).setWidth 32
    ||| (BitVec.ofNat 8 tp.dataSetup).setWidth 32 <<< 8
    ||| (BitVec.ofNat 4 tp.busTurnaround).setWidth 32 <<< 16

/-! ### Data lanes -/

/-- R52 (b): the value `dout` driven on `D[15:0]` for a write of the given size on a bus of width `n`. The sizes a
bank access never has at this point (32-bit, reserved) are given the 16-bit line; `bankCheck` stops them first. -/
def laneFill (fill : ByteFill) (size : Size) (n : BusWidth) (wdata : Word) : Half :=
  match size, n, fill with
  | .b8, .w8, _ => (wdata.setWidth 8).setWidth 16
  | .b8, .w16, .zero => (wdata.setWidth 8).setWidth 16
  | .b8, .w16, .dup => (wdata.setWidth 8).setWidth 16 <<< 8 ||| (wdata.setWidth 8).setWidth 16
  | _, _, _ => wdata.setWidth 16

/-- `D[n-1:0]` of a 16-bit pin value. -/
def pinData (n : BusWidth) (d : Half) : PinData :=
  match n with
  | .w8 => .d8 (d.setWidth 8)
  | .w16 => .d16 d

/-- The bus width `n` of a pin value. -/
def PinData.width : PinData → BusWidth
  | .d8 _ => .w8
  | .d16 _ => .w16

/-- The low lane `D[7:0]`. -/
def PinData.low : PinData → Byte
  | .d8 v => v
  | .d16 v => v.setWidth 8

/-- All lines of the bus, zero-extended to 16 bits. -/
def PinData.all : PinData → Half
  | .d8 v => v.setWidth 16
  | .d16 v => v

/-- R52 (c): the value a read of the given size returns for the pin value `din`. -/
def readLane (size : Size) (din : PinData) : Word :=
  match size with
  | .b8 => din.low.setWidth 32
  | _ => din.all.setWidth 32

/-- `70_reset_and_hazards.md` R145: what of a driven pin value reaches a board with `dpins` data pins (`none` for
`D[15:8]` lines that FDBIC does not drive or that have no pin). -/
def boardLanes (dpins : BusWidth) (d : PinData) : Byte × Option Byte :=
  match dpins, d with
  | .w16, .d16 v => (v.setWidth 8, some (v.extractLsb' 8 8))
  | _, d => (d.low, none)

end Sys2Proof.Machine
end

