-- ==== Sys2Proof/Machine/Ops.lean ====
section
/-! DEFINITION. The named operations over State: field updates, configuration registers, the request checks, the
error response (the one exception of this hardware), and the transaction-level bus cycles `MemWrite` and `MemRead`
(`00_scope.md` R7). -/

namespace Sys2Proof.Machine

namespace State

/-! ### Field updates -/

def setHost (s : State) (h : List Request) : State := { s with host := h }
def setPhase (s : State) (p : Phase) (c : BitVec 8) : State := { s with phase := p, cnt := c }
def setCur (s : State) (c : TransferLatch) : State := { s with cur := c }
def addEvent (s : State) (e : BusEvent) : State := { s with trace := s.trace ++ [e] }
def addResponse (s : State) (r : Response) : State := { s with responses := s.responses ++ [r] }
def advance (s : State) (k : Nat) : State := { s with cycle := s.cycle + k }
/-- The device has seen a cycle: whatever it drives next is a fresh free value (R24, log 2). -/
def stepDevice (s : State) : State := { s with dev := s.dev + 1 }

/-! ### Configuration registers (`00_scope.md` R7: `x[i]`, `x[i] <- v`) -/

/-- `x[i]`. -/
def readReg (s : State) : ConfigReg → Word
  | .bcr => s.bcr
  | .rtr => s.rtr
  | .wtr => s.wtr

/-- `x[i] <- v`, through the masks of `10_state.md` R19. -/
def writeReg (s : State) (k : ConfigReg) (v : Word) : State :=
  match k with
  | .bcr => { s with bcr := v &&& regMask .bcr }
  | .rtr => { s with rtr := v &&& regMask .rtr }
  | .wtr => { s with wtr := v &&& regMask .wtr }

/-- `43_sequencer.md` R98: the timing set of a transfer, by its direction alone. -/
def timingFor (s : State) (write : Bool) : TimingSet := timingOf (if write then s.wtr else s.rtr)

end State

/-! ### Checks (`60_exceptions.md` R124: the first that fails gives the cause) -/

/-- `40_config_access.md` R60. -/
def cfgCheck (size : Size) (addr : Word) : Option Fault :=
  if size ≠ .b32 then some .size
  else if addr.extractLsb' 0 2 ≠ 0b00#2 then some .align
  else if addr.extractLsb' 2 2 = 0b11#2 then some .reserved
  else none

/-- `41_bank_write.md` R70: the cause, or the bus width `n`. -/
def bankCheck (bcr : Word) (size : Size) (addr : Word) : Except Fault BusWidth :=
  if size = .b32 ∨ size = .reserved then .error .size
  else if size = .b16 ∧ addr.getLsbD 0 = true then .error .align
  else if bcrEn bcr = false then .error .disabled
  else if bcrLegal bcr = false then .error .config
  else if size = .b16 ∧ bcrWidth bcr = .w8 then .error .width
  else .ok (bcrWidth bcr)

/-! ### Responses -/

/-- A request that is answered in the cycle in which it is looked at (`43_sequencer.md` R103, R104). -/
def answer (r : Response) (s : State) : State := (s.addResponse r).advance 1

/-- TAKING AN EXCEPTION (`60_exceptions.md` R120, R125): the error response. Nothing is saved, nothing changes; the
host has its response and the next request is accepted in the next cycle. Its return (R126) is no operation: there is
nothing to restore. -/
def errorResponse (c : Fault) (s : State) : State := answer (.error c) s

/-- The cause of the error response to a request that is none of the 14 operations (R54), and `none` for one that is
not FDBIC's. -/
def rejectCause (why : Reject) (r : Request) : Option Fault :=
  match why with
  | .outsideRegions => none
  | .configSize => some .size
  | .reservedRegister => cfgCheck r.size r.addr
  | .bankSize => some .size

/-- A request that the decoder rejects: the error response of R54, or the refusal R30 asks of a model. -/
def serveRejected (why : Reject) (r : Request) (s : State) : Host.Outcome State Fault Refusal :=
  match rejectCause why r with
  | some c => .next (errorResponse c s)
  | none => .refused .outsideRegions

/-- A cycle in which no request is presented (`60_exceptions.md` R133). -/
def idleCycle (s : State) : State := s.advance 1

/-! ### Configuration access (R60 to R66) -/

def configRead (k : ConfigReg) (addr : Word) (s : State) : State :=
  match cfgCheck .b32 addr with
  | some c => errorResponse c s
  | none => answer (.value (s.readReg k)) s

def configWrite (k : ConfigReg) (addr wdata : Word) (s : State) : State :=
  match cfgCheck .b32 addr with
  | some c => errorResponse c s
  | none => answer .written (s.writeReg k wdata)

/-! ### Bus cycles at the transaction level -/

/-- The latch of a transfer (`43_sequencer.md` R91). -/
def latchOf (s : State) (write rs : Bool) (n : BusWidth) (size : Size) (addr wdata : Word) : TransferLatch where
  write := write
  rs := rs
  n := n
  dout := if write then laneFill s.params.byteFill size n wdata else 0
  addr := addr
  t := s.timingFor write

/-- The trace event of a latched transfer (R9, R94): FDBIC drives the data of a write, the device that of a read. -/
def eventOf (c : TransferLatch) (din : Half) : BusEvent where
  kind := if c.write then .write else .read
  rs := c.rs
  addr := c.addr
  data := pinData c.n (if c.write then c.dout else din)
  tset := c.t

/-- One whole bus cycle with the latch `c`, from acceptance until the sequencer is idle again (`MemWrite`, `MemRead`
of `00_scope.md` R7; `43_sequencer.md` R97, R100): the latch is written and keeps its value, one event is appended, the
device has seen the cycle, `cnt` has counted down to 0. -/
def busCycle (c : TransferLatch) (din : Half) (s : State) : State :=
  ((((s.setCur c).addEvent (eventOf c din)).stepDevice).setPhase .idle 0).advance c.t.period

/-- `bank_write` of `41_bank_write.md` R70 for a request of the given size, register-select value and address. -/
def bankWrite (size : Size) (rs : Bool) (addr wdata : Word) (s : State) : State :=
  match bankCheck s.bcr size addr with
  | .error c => errorResponse c s
  | .ok n => (busCycle (latchOf s true rs n size addr wdata) 0 s).addResponse .written

/-- `bank_read` of `42_bank_read.md` R80, with `din` what is on `D[15:0]` when it is sampled. -/
def bankReadOf (din : Half) (size : Size) (rs : Bool) (addr : Word) (s : State) : State :=
  match bankCheck s.bcr size addr with
  | .error c => errorResponse c s
  | .ok n =>
    (busCycle (latchOf s false rs n size addr 0) din s).addResponse (.value (readLane size (pinData n din)))

/-- `bank_read` with the free value the device drives in its present state (log 2). -/
def bankRead (size : Size) (rs : Bool) (addr : Word) (s : State) : State :=
  bankReadOf (Config.deviceDrives s.dev) size rs addr s

end Sys2Proof.Machine
end

