-- ==== Sys2Proof/Machine/BankRead.lean ====
section
/-! DEFINITION. The meanings of the four bank reads (`42_bank_read.md` R80 to R84), each one whole transfer; the value
is the free value of the device (log 2). The register-select value is the mnemonic's (log 15). -/

namespace Sys2Proof.Machine

/-- `RDCMD8`, R81. -/
def execRdcmd8 (addr : Word) (s : State) : Host.Outcome State Fault Refusal := .next (bankRead .b8 false addr s)

/-- `RDCMD16`, R82. -/
def execRdcmd16 (addr : Word) (s : State) : Host.Outcome State Fault Refusal := .next (bankRead .b16 false addr s)

/-- `RDDAT8`, R83. -/
def execRddat8 (addr : Word) (s : State) : Host.Outcome State Fault Refusal := .next (bankRead .b8 true addr s)

/-- `RDDAT16`, R84. -/
def execRddat16 (addr : Word) (s : State) : Host.Outcome State Fault Refusal := .next (bankRead .b16 true addr s)

end Sys2Proof.Machine
end

