-- ==== Sys2Proof/Machine/BankWrite.lean ====
section
/-! DEFINITION. The meanings of the four bank writes (`41_bank_write.md` R70 to R74), each one whole transfer from
acceptance until the sequencer is idle again. The register-select value is the mnemonic's (R71 to R74; log 15). -/

namespace Sys2Proof.Machine

/-- `WRCMD8`, R71. -/
def execWrcmd8 (addr wdata : Word) (s : State) : Host.Outcome State Fault Refusal :=
  .next (bankWrite .b8 false addr wdata s)

/-- `WRCMD16`, R72. -/
def execWrcmd16 (addr wdata : Word) (s : State) : Host.Outcome State Fault Refusal :=
  .next (bankWrite .b16 false addr wdata s)

/-- `WRDAT8`, R73. -/
def execWrdat8 (addr wdata : Word) (s : State) : Host.Outcome State Fault Refusal :=
  .next (bankWrite .b8 true addr wdata s)

/-- `WRDAT16`, R74. -/
def execWrdat16 (addr wdata : Word) (s : State) : Host.Outcome State Fault Refusal :=
  .next (bankWrite .b16 true addr wdata s)

end Sys2Proof.Machine
end

