-- ==== Sys2Proof/Machine/ConfigAccess.lean ====
section
/-! DEFINITION. The meanings of the six configuration operations (`40_config_access.md` R61 to R66). Each runs
`cfg_check` (R60) and needs no enabled bank. They are called with the sequencer idle (R60, log 10). -/

namespace Sys2Proof.Machine

/-- `CFGRD.BCR`, R64. -/
def execCfgrdBcr (addr : Word) (s : State) : Host.Outcome State Fault Refusal := .next (configRead .bcr addr s)

/-- `CFGRD.RTR`, R65. -/
def execCfgrdRtr (addr : Word) (s : State) : Host.Outcome State Fault Refusal := .next (configRead .rtr addr s)

/-- `CFGRD.WTR`, R66. -/
def execCfgrdWtr (addr : Word) (s : State) : Host.Outcome State Fault Refusal := .next (configRead .wtr addr s)

/-- `CFGWR.BCR`, R61. -/
def execCfgwrBcr (addr wdata : Word) (s : State) : Host.Outcome State Fault Refusal :=
  .next (configWrite .bcr addr wdata s)

/-- `CFGWR.RTR`, R62. -/
def execCfgwrRtr (addr wdata : Word) (s : State) : Host.Outcome State Fault Refusal :=
  .next (configWrite .rtr addr wdata s)

/-- `CFGWR.WTR`, R63. -/
def execCfgwrWtr (addr wdata : Word) (s : State) : Host.Outcome State Fault Refusal :=
  .next (configWrite .wtr addr wdata s)

end Sys2Proof.Machine
end

