-- ==== Sys2Proof/Machine/Dispatch.lean ====
section
/-! DEFINITION. One arm per instruction. -/

namespace Sys2Proof.Machine

def exec (i : Instr) (s : State) : Host.Outcome State Fault Refusal :=
  match i with
  -- configuration registers
  | .cfgrdBcr addr => Sys2Proof.Machine.execCfgrdBcr addr s
  | .cfgrdRtr addr => Sys2Proof.Machine.execCfgrdRtr addr s
  | .cfgrdWtr addr => Sys2Proof.Machine.execCfgrdWtr addr s
  | .cfgwrBcr addr wdata => Sys2Proof.Machine.execCfgwrBcr addr wdata s
  | .cfgwrRtr addr wdata => Sys2Proof.Machine.execCfgwrRtr addr wdata s
  | .cfgwrWtr addr wdata => Sys2Proof.Machine.execCfgwrWtr addr wdata s
  -- bank reads
  | .rdcmd8 addr => Sys2Proof.Machine.execRdcmd8 addr s
  | .rddat8 addr => Sys2Proof.Machine.execRddat8 addr s
  | .rdcmd16 addr => Sys2Proof.Machine.execRdcmd16 addr s
  | .rddat16 addr => Sys2Proof.Machine.execRddat16 addr s
  -- bank writes
  | .wrcmd8 addr wdata => Sys2Proof.Machine.execWrcmd8 addr wdata s
  | .wrdat8 addr wdata => Sys2Proof.Machine.execWrdat8 addr wdata s
  | .wrcmd16 addr wdata => Sys2Proof.Machine.execWrcmd16 addr wdata s
  | .wrdat16 addr wdata => Sys2Proof.Machine.execWrdat16 addr wdata s

end Sys2Proof.Machine
end

