-- ==== Sys2Proof/Machine/Reset.lean ====
section
/-! DEFINITION. The reset input (`70_reset_and_hazards.md` R140, R141) and the host side of the request port
(`10_state.md` R23): what the outside world does between two clock edges. None of these is an instruction. -/

namespace Sys2Proof.Machine

/-- A request whose transfer has started and has had no response yet: the first of `host` while the sequencer is in
`ADDR` or `DATA` (R91 to R94). -/
def inFlight (s : State) : Bool := s.phase == .addr || s.phase == .data

/-- What a rising edge makes of reset (R140): the first one after `rst_n` has returned to 1 ends it. -/
def ResetStage.atEdge : ResetStage → ResetStage
  | .asserted => .asserted
  | .released => .over
  | .over => .over

namespace State

/-- The state at the reset values (R140, R26): everything of FDBIC, the trace and the run's ghost lists; the host's
requests, the device and the parameters are outside FDBIC's reset. -/
def atReset (k : ResetStage) (s : State) : State :=
  { State.resetFor s.params with rst := k, host := s.host, dev := s.dev }

/-- `rst_n` falls (R141), at any point. The request in flight gets no response and no event and is no longer
presented; the device has seen what it has seen and its state is unknown (a fresh free value; log 8). -/
def assertReset (s : State) : State :=
  ((s.setHost (if inFlight s then s.host.tail else s.host)).stepDevice).atReset .asserted

/-- `rst_n` returns to 1 (R140). The reset values hold until the first rising edge after this. -/
def releaseReset (s : State) : State := if s.rst = .asserted then { s with rst := .released } else s

/-- The host has one more request to issue (R23, R152). -/
def present (s : State) (r : Request) : State := s.setHost (s.host ++ [r])

end State

end Sys2Proof.Machine
end

