-- ==== Sys2Proof/Machine/Sequencer.lean ====
section
/-! DEFINITION. The clock level (`43_sequencer.md` R90 to R104): the pins and the response outputs as functions of the
state during a cycle, and `clockEdge`, the change at the rising edge that closes the cycle. -/

namespace Sys2Proof.Machine

/-! ### What the controller makes of the presented request in an `IDLE` cycle -/

/-- R91, R103, R104: the four cases. -/
inductive Verdict where
  /-- region `NONE`: not FDBIC's request. -/
  | unseen
  /-- a failing check. -/
  | error (cause : Fault)
  /-- a configuration access to a register. -/
  | config (reg : ConfigReg)
  /-- a bank request that is accepted, with its register-select value and bus width. -/
  | accept (rs : Bool) (n : BusWidth)
  deriving DecidableEq, Repr

/-- The checks of R60 and R70 on the presented request, in the order of `60_exceptions.md` R124. -/
def verdict (p : Params) (bcr : Word) (r : Request) : Verdict :=
  match decodeAddress p r.addr with
  | .outside => .unseen
  | .cfg k =>
    match cfgCheck r.size r.addr, regOfNumber k with
    | some c, _ => .error c
    | none, some reg => .config reg
    | none, none => .error .reserved
  | .bank rs =>
    match bankCheck bcr r.size r.addr with
    | .error c => .error c
    | .ok n => .accept rs n

/-! ### Outputs during a cycle -/

/-- The output pins (`10_state.md` R22); `d` is the driven data value, `none` when FDBIC drives no data pin. -/
structure Pins where
  csN : Bool
  rdN : Bool
  wrN : Bool
  rs : Bool
  d : Option PinData
  deriving DecidableEq, Repr

/-- `10_state.md` R22, `43_sequencer.md` R96: pure functions of the sequencer state. -/
def pins (s : State) : Pins where
  csN := !(s.phase == .addr || s.phase == .data)
  rdN := !(s.phase == .data && !s.cur.write)
  wrN := !(s.phase == .data && s.cur.write)
  rs := s.cur.rs
  d := if (s.phase == .addr || s.phase == .data) && s.cur.write then some (pinData s.cur.n s.cur.dout) else none

/-- The response outputs of the host port (`10_state.md` R23); `rdata` is `none` where it is not valid. -/
structure PortOut where
  ready : Bool
  err : Bool
  rdata : Option Word
  deriving DecidableEq, Repr

/-- No response in this cycle. -/
def PortOut.quiet : PortOut := { ready := false, err := false, rdata := none }

/-- The response outputs of an `IDLE` cycle with the request `r` presented (R91, R103, R104). -/
def idleOut (s : State) (r : Request) : PortOut :=
  match verdict s.params s.bcr r with
  | .unseen => .quiet
  | .error _ => { ready := true, err := true, rdata := none }
  | .config reg => { ready := true, err := false, rdata := if r.write then none else some (s.readReg reg) }
  | .accept _ _ => .quiet

/-- `43_sequencer.md` R90, R92 to R95: the response outputs in the cycle of state `s`, with `din` on the data pins. None
while `rst_n = 0`, nor at the first rising edge after it has returned to 1 (R140; log 22). DESIGN CHOICE (log 20): in a `DATA` cycle whose
request in flight the host has let go there is no response, and in the last one any other presented request is answered
as R94 says, without a test that it is the one in flight; `runningEdge` refuses the edge of such a cycle. -/
def portOutOf (din : Half) (s : State) : PortOut :=
  if s.rst ≠ .over then .quiet
  else
    match s.phase, s.host with
    | .idle, r :: _ => idleOut s r
    | .data, r :: _ =>
      if s.cnt = 0 then
        { ready := true, err := false,
          rdata := if s.cur.write then none else some (readLane r.size (pinData s.cur.n din)) }
      else .quiet
    | _, _ => .quiet

/-- The response outputs with the free value the device drives. -/
def portOut (s : State) : PortOut := portOutOf (Config.deviceDrives s.dev) s

/-! ### The edge that closes the cycle -/

/-- R91: the latch of an accepted request. -/
def acceptLatch (s : State) (r : Request) (rs : Bool) (n : BusWidth) : TransferLatch :=
  latchOf s r.write rs n r.size r.addr r.wdata

/-- The edge into the `DATA` phase (R91, R92). -/
def enterData (s : State) : State := s.setPhase .data s.cur.t.datast

/-- R91: acceptance. The request stays presented. -/
def acceptEdge (c : TransferLatch) (s : State) : State :=
  let s' := s.setCur c
  if c.t.addset = 0 then enterData s' else s'.setPhase .addr (c.t.addset.setWidth 8 - 1)

/-- The edge of an `IDLE` cycle (R91, R103, R104), the request `r` presented and `rest` after it. -/
def idleEdge (s : State) (r : Request) (rest : List Request) : State :=
  match verdict s.params s.bcr r with
  | .unseen => s.advance 1
  | .error c => errorResponse c (s.setHost rest)
  | .config reg =>
    if r.write then answer .written ((s.setHost rest).writeReg reg r.wdata)
    else answer (.value (s.readReg reg)) (s.setHost rest)
  | .accept rs n => (acceptEdge (acceptLatch s r rs n) s).advance 1

/-- R92: the edge of an `ADDR` cycle. -/
def addrEdge (s : State) : State :=
  (if s.cnt = 0 then enterData s else s.setPhase .addr (s.cnt - 1)).advance 1

/-- R94: the phase after the last `DATA` cycle. -/
def enterTurn (s : State) : State :=
  if s.cur.t.busturn = 0 then s.setPhase .idle s.cnt else s.setPhase .turn (s.cur.t.busturn.setWidth 8 - 1)

/-- R93, R94: the edge of a `DATA` cycle with `din` on the data pins, for the held request `r`. -/
def dataEdge (din : Half) (s : State) (r : Request) (rest : List Request) : State :=
  if s.cnt = 0 then
    let resp := if s.cur.write then Response.written else .value (readLane r.size (pinData s.cur.n din))
    (enterTurn ((((s.addEvent (eventOf s.cur din)).stepDevice).addResponse resp).setHost rest)).advance 1
  else (s.setPhase .data (s.cnt - 1)).advance 1

/-- R95: the edge of a `TURN` cycle. -/
def turnEdge (s : State) : State :=
  (if s.cnt = 0 then s.setPhase .idle s.cnt else s.setPhase .turn (s.cnt - 1)).advance 1

/-- The presented request is, as far as the latch shows, the one in flight (R23: "held with stable fields"). -/
def holds (c : TransferLatch) (r : Request) : Bool := r.write == c.write && r.addr == c.addr

/-- One clock cycle of a machine whose reset is over, with `din` on the data pins. A host that does not
hold the request of a transfer in flight is given no behaviour (U16, D37; log 20). -/
def runningEdge (din : Half) (s : State) : Host.Outcome State Fault Refusal :=
  match s.phase, s.host with
  | .idle, [] => .next (idleCycle s)
  | .idle, r :: rest => .next (idleEdge s r rest)
  | .addr, r :: _ => if holds s.cur r then .next (addrEdge s) else .refused .requestNotHeld
  | .addr, [] => .refused .requestNotHeld
  | .data, r :: rest => if holds s.cur r then .next (dataEdge din s r rest) else .refused .requestNotHeld
  | .data, [] => .refused .requestNotHeld
  | .turn, _ => .next (turnEdge s)

/-- One clock cycle with `din` on the data pins (R90). While `rst_n = 0` and at the first rising edge after that every piece
of state has its reset value and nothing presented is served (R140; log 22). -/
def clockEdgeOf (din : Half) (s : State) : Host.Outcome State Fault Refusal :=
  if s.rst = .over then runningEdge din s else .next (s.atReset s.rst.atEdge)

/-- One clock cycle with the free value the device drives (log 2). -/
def clockEdge (s : State) : Host.Outcome State Fault Refusal := clockEdgeOf (Config.deviceDrives s.dev) s

/-- `k` clock cycles. -/
def clockRun : Nat → State → Host.Outcome State Fault Refusal
  | 0, s => .next s
  | k + 1, s =>
    match clockEdge s with
    | .next s' => clockRun k s'
    | .fault f => .fault f
    | .refused x => .refused x

end Sys2Proof.Machine
end

