-- ==== Sys2Proof/Machine/Step.lean ====
section
/-! DEFINITION. One step of the machine. With the sequencer idle a step takes the presented request from the host and
runs it as one transaction (`exec`, `00_scope.md` R7, `43_sequencer.md` R100); in the middle of a transfer, or with
reset not over, a step is one clock cycle (`clockEdge`). -/

namespace Sys2Proof.Machine

/-- The presented request is decoded and served; `rest` are the requests after it (`60_exceptions.md` R124). -/
def serve (r : Request) (rest : List Request) (s : State) : Host.Outcome State Fault Refusal :=
  match decodeRequest s.params r with
  | .ok i => exec i (s.setHost rest)
  | .error why => serveRejected why r (s.setHost rest)

def step (s : State) : Host.Outcome State Fault Refusal :=
  if s.rst ≠ .over then clockEdge s
  else
    match s.phase, s.host with
    | .idle, [] => .next (idleCycle s)
    | .idle, r :: rest => serve r rest s
    | .addr, _ => clockEdge s
    | .data, _ => clockEdge s
    | .turn, _ => clockEdge s

/-- `k` steps, stopping at the first fault or refusal. -/
def runSteps : Nat → State → Host.Outcome State Fault Refusal
  | 0, s => .next s
  | k + 1, s =>
    match step s with
    | .next s' => runSteps k s'
    | .fault f => .fault f
    | .refused x => .refused x

/-- The state in which the very next step runs the request of the table word `w`: reset over, sequencer idle, the
request presented before all others. A word without a request (R54) leaves the state as it is (log 9). -/
def State.withFetchWord (s : State) (nbits w : Nat) : State :=
  match requestOfTableWord s.params nbits w with
  | some r => { s with rst := .over, phase := .idle, cnt := 0, host := r :: s.host }
  | none => s

end Sys2Proof.Machine
end

