-- ==== Sys2Proof/Machine/Adapter.lean ====
section
/-! DEFINITION. The pseudo-instructions of `44_adapter.md` R110 to R116 as expansions into instructions. They are
software, in scope as expansions only (`00_scope.md` R3). -/

namespace Sys2Proof.Machine

/-- R110, first form, either bus width: the hardware widens the byte. -/
def writeCommand (p : Params) (value : Byte) : List Instr := [.wrcmd8 (commandAddress p) (value.setWidth 32)]

/-- R110, the forms of a 16-bit bus in which software widens the byte as `BYTE_FILL` says. -/
def writeCommandWide (p : Params) (value : Byte) : List Instr :=
  match p.byteFill with
  | .dup => [.wrcmd16 (commandAddress p) (value.setWidth 32 <<< 8 ||| value.setWidth 32)]
  | .zero => [.wrcmd16 (commandAddress p) (value.setWidth 32)]

/-- R111: `write_data(value, width)`. -/
def writeData (p : Params) (width : BusWidth) (value : Half) : List Instr :=
  match width with
  | .w8 => [.wrdat8 (dataAddress p) ((value.setWidth 8).setWidth 32)]
  | .w16 => [.wrdat16 (dataAddress p) (value.setWidth 32)]

/-- R112: `read_data()` on a bus of width `n`. -/
def readData (p : Params) (n : BusWidth) : List Instr :=
  match n with
  | .w8 => [.rddat8 (dataAddress p)]
  | .w16 => [.rddat16 (dataAddress p)]

/-- R113: `send_command(opcode, params)`; a parameter byte is sent as an 8-bit write on either bus (D31). -/
def sendCommand (p : Params) (opcode : Byte) (params : List Byte) : List Instr :=
  writeCommand p opcode ++ params.flatMap fun b => writeData p .w8 (b.setWidth 16)

/-- R114: `send_data(payload)` on a bus of width `n`. -/
def sendData (p : Params) (n : BusWidth) (payload : List Half) : List Instr := payload.flatMap (writeData p n)

/-- R116 step 3: the `BCR` word of a live bank of width `n`. -/
def liveBcr (n : BusWidth) : Word :=
  match n with
  | .w8 => 0x00000001#32
  | .w16 => 0x00000011#32

/-- R116: the initializer. -/
def initializer (p : Params) (rtp wtp : TimingParameters) (n : BusWidth) : List Instr :=
  [ .cfgwrRtr (configAddress p 1) (timingWord rtp),
    .cfgwrWtr (configAddress p 2) (timingWord wtp),
    .cfgwrBcr (configAddress p 0) (liveBcr n) ]

end Sys2Proof.Machine
end

