-- ==== Sys2Proof/Machine/Board.lean ====
section
/-! DEFINITION. The board around FDBIC (`70_reset_and_hazards.md` R143, R146; log 23): which pins are bound to the
controller, which host address bit the device's register-select input is wired to, and what timing the device needs. No
definition of the machine reads any of it: FDBIC behaves the same whether or not the pins are bound (R143) and runs any
counts it is given (R146). -/

namespace Sys2Proof.Machine

/-- R143: the binding of the pins ("assigned to the memory-controller's dedicated hardware function") and the wiring. -/
structure Board where
  cs : Bool
  rd : Bool
  wr : Bool
  rs : Bool
  /-- Bit `i`: data line `D[i]` is bound. -/
  data : Half
  /-- The host byte-address bit the register-select line is wired to. -/
  rsBit : Nat
  deriving DecidableEq, Repr

/-- The board of the parameters: all pins bound, `DPINS` data lines, register-select wired to bit `RS_BIT`. -/
def Board.ofParams (p : Params) : Board where
  cs := true
  rd := true
  wr := true
  rs := true
  data := match p.dpins with
    | .w8 => 0x00FF#16
    | .w16 => 0xFFFF#16
  rsBit := p.rsBit

/-- The data lines of a pin value, as a mask. -/
def PinData.lines : PinData → Half
  | .d8 _ => 0x00FF#16
  | .d16 _ => 0xFFFF#16

/-- The pins as the board has them: `none` for a control pin that is not bound; `lines` are the data lines FDBIC drives
on the board and `value` what is on them (0 elsewhere). -/
structure BoardPins where
  csN : Option Bool
  rdN : Option Bool
  wrN : Option Bool
  rs : Option Bool
  lines : Half
  value : Half
  deriving DecidableEq, Repr

/-- A pin's level where it is bound. -/
def whenBound (bound level : Bool) : Option Bool := if bound then some level else none

/-- The data lines FDBIC drives at its own pins, as a mask. -/
def Pins.lines (q : Pins) : Half :=
  match q.d with
  | some d => d.lines
  | none => 0

/-- What is on the driven lines, 0 elsewhere. -/
def Pins.value (q : Pins) : Half :=
  match q.d with
  | some d => d.all
  | none => 0

/-- R143: the pin outputs that reach the board. -/
def boardPins (b : Board) (q : Pins) : BoardPins where
  csN := whenBound b.cs q.csN
  rdN := whenBound b.rd q.rdN
  wrN := whenBound b.wr q.wrN
  rs := whenBound b.rs q.rs
  lines := q.lines &&& b.data
  value := q.value &&& b.data

/-- What the device sees of one bus cycle: whether chip-select and the cycle's strobe reach it, its register-select level
(`none` where the line is not bound), and the bound data lines with what is on them. -/
structure SeenCycle where
  selected : Bool
  rs : Option Bool
  lines : Half
  value : Half
  deriving DecidableEq, Repr

/-- R143: a cycle of the trace as the device sees it. The level of its register-select input is the host address bit that
the line is wired to. -/
def seenByDevice (b : Board) (e : BusEvent) : SeenCycle where
  selected := b.cs && (match e.kind with | .write => b.wr | .read => b.rd)
  rs := whenBound b.rs (e.addr.getLsbD b.rsBit)
  lines := e.data.lines &&& b.data
  value := e.data.all &&& b.data

/-- R146: what one kind of cycle must have at least for the device, in bus clock cycles. -/
structure DeviceNeeds where
  addressSetup : Nat
  strobeWidth : Nat
  recovery : Nat
  deriving DecidableEq, Repr

/-- The counts give at least what the device needs: `A` address cycles, a strobe of `S + 1` cycles (R97), `B + 1`
inactive cycles afterwards (R102). DEDUCED (log 23). -/
def DeviceNeeds.met (d : DeviceNeeds) (t : TimingSet) : Bool :=
  decide (d.addressSetup ≤ t.addset.toNat) && decide (d.strobeWidth ≤ t.datast.toNat + 1)
    && decide (d.recovery ≤ t.busturn.toNat + 1)

/-- The cycles a device with these needs accepts; read and write needs are separate (R146). -/
def acceptsOf (read write : DeviceNeeds) (kind : BusKind) (t : TimingSet) : Bool :=
  match kind with
  | .read => read.met t
  | .write => write.met t

end Sys2Proof.Machine
end

