-- ==== Sys2Proof/Safety.lean ====
section
/-! DEFINITION. What claims call a good run, and the premises of `70_reset_and_hazards.md` that FDBIC cannot check. -/

namespace Sys2Proof.Machine

/-- An error response. -/
def Response.isError : Response → Bool
  | .error _ => true
  | .written => false
  | .value _ => false

/-- R152, R120: no request of the run so far had an error response. -/
def goodRun (s : State) : Bool := s.responses.all fun r => !r.isError

/-- R152: the run is over. -/
def runOver (s : State) : Bool := s.host.isEmpty && s.phase == .idle

/-- R152: the result of a run. -/
structure RunResult where
  bcr : Word
  rtr : Word
  wtr : Word
  responses : List Response
  trace : List BusEvent
  deriving DecidableEq, Repr

/-- R152: the result read from a state. -/
def runResult (s : State) : RunResult where
  bcr := s.bcr
  rtr := s.rtr
  wtr := s.wtr
  responses := s.responses
  trace := s.trace

/-- `40_config_access.md` R68: the named premise that a timing triple fits its fields. -/
abbrev FitsFields (tp : TimingParameters) : Prop :=
  tp.addressSetup < 16 ∧ tp.dataSetup < 256 ∧ tp.busTurnaround < 16

/-- R145: the configured bus width is the number of bound data pins; FDBIC cannot check it. -/
abbrev WidthMatchesPins (s : State) : Prop := bcrWidth s.bcr = s.params.dpins

/-- R143: the premise "pins bound, and register-select wired to host address bit `RS_BIT`", for a bus of width `n`. FDBIC
cannot check it; without it the trace says what FDBIC did, not what the device saw. -/
abbrev PinsBound (b : Board) (p : Params) (n : BusWidth) : Prop :=
  (b.cs = true ∧ b.rd = true ∧ b.wr = true ∧ b.rs = true) ∧ (∀ j < n.bits, b.data.getLsbD j = true) ∧
  b.rsBit = p.rsBit

/-- R146: the premise about the oracle, "the device accepts cycles with these counts", for the counts in `RTR` and `WTR`;
`accepts` is the device's own, any predicate (`acceptsOf` gives the one of a device with minimum times). FDBIC cannot
check it. -/
abbrev DeviceAccepts (accepts : BusKind → TimingSet → Bool) (s : State) : Prop :=
  accepts .read (timingOf s.rtr) = true ∧ accepts .write (timingOf s.wtr) = true

/-- R16 by bit positions: `MUX = 0`, `MTYP = 0b00`, `MWID` is `0b00` or `0b01`. -/
abbrev LegalBcr (b : Word) : Prop := b.getLsbD 1 = false ∧ b.extractLsb' 2 2 = 0b00#2 ∧ b.getLsbD 5 = false

/-- R142: the bank is live with bus width `n`: `EN = 1`, a legal `BCR`, `MWID` the code of `n`, by bit positions. -/
abbrev Live (s : State) (n : BusWidth) : Prop :=
  s.bcr.getLsbD 0 = true ∧ LegalBcr s.bcr ∧ s.bcr.getLsbD 4 = (n == .w16)

/-! ### The words claims are stated in -/

/-- The six configuration operations by register. -/
def cfgrdOf : ConfigReg → Word → Instr
  | .bcr, a => .cfgrdBcr a
  | .rtr, a => .cfgrdRtr a
  | .wtr, a => .cfgrdWtr a

def cfgwrOf : ConfigReg → Word → Word → Instr
  | .bcr, a, v => .cfgwrBcr a v
  | .rtr, a, v => .cfgwrRtr a v
  | .wtr, a, v => .cfgwrWtr a v

/-- `s` after an immediate answer (R103, R104): one more response, one more cycle, nothing else. -/
def answered (s : State) (r : Response) : State :=
  { s with responses := s.responses ++ [r], cycle := s.cycle + 1 }

/-- `s` after one whole transfer with the latch `c`, event `e` and response `r` (R94, R97, R100): these fields and
nothing else. -/
def transferred (s : State) (c : TransferLatch) (e : BusEvent) (r : Response) : State :=
  { s with
    cur := c, phase := .idle, cnt := 0, dev := s.dev + 1, trace := s.trace ++ [e], responses := s.responses ++ [r],
    cycle := s.cycle + (c.t.addset.toNat + c.t.datast.toNat + 2 + c.t.busturn.toNat) }

/-- The timing triple of a register word by its bit positions (R17). -/
def tripleAt (w : Word) : TimingSet := ⟨w.extractLsb' 0 4, w.extractLsb' 8 8, w.extractLsb' 16 4⟩

/-- `s` after an accepted write with `D[15:0] = dout`, of which `data` are the `n` lines of the bus. -/
def afterWrite (s : State) (rs : Bool) (n : BusWidth) (addr : Word) (dout : Half) (data : PinData) : State :=
  transferred s ⟨true, rs, n, dout, addr, tripleAt s.wtr⟩ ⟨.write, rs, addr, data, tripleAt s.wtr⟩ .written

/-- `s` after an accepted read in which the device drove `data` on the lines of the bus and the host received `v`. -/
def afterRead (s : State) (rs : Bool) (n : BusWidth) (addr : Word) (data : PinData) (v : Word) : State :=
  transferred s ⟨false, rs, n, 0, addr, tripleAt s.rtr⟩ ⟨.read, rs, addr, data, tripleAt s.rtr⟩ (.value v)

/-- The lines of the bus for an 8-bit write of `b` (R52 (b)). -/
def byteOnBus (fill : ByteFill) (n : BusWidth) (b : Byte) : PinData :=
  match n, fill with
  | .w8, _ => .d8 b
  | .w16, .zero => .d16 (0#8 ++ b : BitVec 16)
  | .w16, .dup => .d16 (b ++ b : BitVec 16)

/-- The event of a write with the timing of `s`. -/
def writeEvent (s : State) (rs : Bool) (addr : Word) (data : PinData) : BusEvent :=
  ⟨.write, rs, addr, data, tripleAt s.wtr⟩

/-- R26: the hardware's values after reset, by name. -/
def AtResetValues (s : State) : Prop :=
  s.bcr = 0x00000000#32 ∧ s.rtr = 0x000FFF0F#32 ∧ s.wtr = 0x000FFF0F#32 ∧ s.phase = .idle ∧ s.cnt = 0 ∧
  s.cur = ⟨false, false, .w8, 0, 0, ⟨0, 0, 0⟩⟩ ∧ s.trace = [] ∧
  pins s = { csN := true, rdN := true, wrN := true, rs := false, d := none }

/-- All pins inactive, `RS` at its last value (R96). -/
def pinsAtRest (s : State) : Pins := { csN := true, rdN := true, wrN := true, rs := s.cur.rs, d := none }

/-! ### The invariant -/

/-- R101, R92, R93, R95: the down-counter within the bound of its phase. -/
def cntBounded (s : State) : Prop :=
  match s.phase with
  | .idle => s.cnt = 0
  | .addr => s.cnt.toNat < s.cur.t.addset.toNat
  | .data => s.cnt.toNat ≤ s.cur.t.datast.toNat
  | .turn => s.cnt.toNat < s.cur.t.busturn.toNat

/-- R91, R99: the request in flight is still presented and the latch is the one its acceptance wrote, under the
registers as they are. -/
def flightLatched (s : State) : Prop :=
  inFlight s = true → ∃ r rest, s.host = r :: rest ∧ decodeAddress s.params r.addr = .bank s.cur.rs ∧
    bankCheck s.bcr r.size r.addr = .ok s.cur.n ∧ s.cur = acceptLatch s r s.cur.rs s.cur.n

/-- What every reachable state of FDBIC satisfies. -/
structure Inv (s : State) : Prop where
  params_valid : s.params.Valid
  /-- R19: reserved bits read as 0. -/
  bcr_masked : s.bcr &&& 0x0000003F#32 = s.bcr
  rtr_masked : s.rtr &&& 0x000FFF0F#32 = s.rtr
  wtr_masked : s.wtr &&& 0x000FFF0F#32 = s.wtr
  cnt_bounded : cntBounded s
  flight_latched : flightLatched s
  /-- R9, R32: every event's address is one of the window and gives the event's register-select value. -/
  trace_in_window : ∀ e ∈ s.trace, decodeAddress s.params e.addr = .bank e.rs
  /-- R41: no bus cycle without a request of its own. -/
  trace_answered : s.trace.length ≤ s.responses.length
  /-- R140: until the first rising edge after the return of `rst_n` everything has its reset value. -/
  held_in_reset : s.rst ≠ .over → s = s.atReset s.rst

end Sys2Proof.Machine
end

