-- ==== Sys2Proof/Certificates/Slice0/Obligations.lean ====
section
/-! DEFINITION. The statements for the provers. Every statement holds for every assignment of the OPEN parameters: they
are the field `params` of the state it quantifies over, or a bound variable `p`.

Where a statement gives a whole next state, three of its clauses are the model's own and no rule of the spec: `cycle`, the
ghost clock (log 7); `dev`, the index of the device's next free value (log 2); `host`, the list of requests still to be
served (log 5). Each docstring that has such a clause names the log entry. -/

open Sys2Proof Sys2Proof.Machine

/-! ### Encoding -/

/-- Sanity, `95_test_vectors.md` L1.3, L2.2, L2.3, L2.4 (set T0): the 67 bits of one request of every operation, written
`{write, size}` digit, address, data, decode to the operation. -/
def Obligations.WordsOfTheVectorsDecode : Prop :=
  decodeBits Config.reference 0x2A000000000000000#67 = .ok (.cfgrdBcr 0xA0000000#32) ∧
  decodeBits Config.reference 0x2A000000400000000#67 = .ok (.cfgrdRtr 0xA0000004#32) ∧
  decodeBits Config.reference 0x2A000000800000000#67 = .ok (.cfgrdWtr 0xA0000008#32) ∧
  decodeBits Config.reference 0x6A0000000FFFFFF11#67 = .ok (.cfgwrBcr 0xA0000000#32 0xFFFFFF11#32) ∧
  decodeBits Config.reference 0x6A0000004FFFFFFFF#67 = .ok (.cfgwrRtr 0xA0000004#32 0xFFFFFFFF#32) ∧
  decodeBits Config.reference 0x6A000000800000201#67 = .ok (.cfgwrWtr 0xA0000008#32 0x00000201#32) ∧
  decodeBits Config.reference 0x06000000000000000#67 = .ok (.rdcmd8 0x60000000#32) ∧
  decodeBits Config.reference 0x06002000000000000#67 = .ok (.rddat8 0x60020000#32) ∧
  decodeBits Config.reference 0x16000000000000000#67 = .ok (.rdcmd16 0x60000000#32) ∧
  decodeBits Config.reference 0x16002000000000000#67 = .ok (.rddat16 0x60020000#32) ∧
  decodeBits Config.reference 0x4600000000000002C#67 = .ok (.wrcmd8 0x60000000#32 0x2C#32) ∧
  decodeBits Config.reference 0x4600200010000007E#67 = .ok (.wrdat8 0x60020001#32 0x7E#32) ∧
  decodeBits Config.reference 0x5600000000000002C#67 = .ok (.wrcmd16 0x60000000#32 0x2C#32) ∧
  decodeBits Config.reference 0x5600200000000F800#67 = .ok (.wrdat16 0x60020000#32 0xF800#32)

/-- R53, R54: an operation word selects a row of the opcode map exactly when it is one of the 14 words of R53, and never
two rows. -/
def Obligations.OpcodeMapIsUnambiguous : Prop :=
  (∀ op : OpWord, (∃ row ∈ opTable, op &&& row.mask = row.pattern) ↔
    op ∈ [0x28#7, 0x29#7, 0x2A#7, 0x38#7, 0x39#7, 0x3A#7, 0x40#7, 0x41#7, 0x44#7, 0x45#7, 0x50#7, 0x51#7, 0x54#7,
      0x55#7]) ∧
  (∀ op : OpWord, ∀ row ∈ opTable, ∀ row' ∈ opTable,
    op &&& row.mask = row.pattern → op &&& row'.mask = row'.pattern → row.name = row'.name)

/-- Decode and encode agree: under parameters that meet R5, the 67 bits of every well-formed instruction, with every
operand, decode to it. -/
def Obligations.DecodeOfEncode : Prop :=
  ∀ (p : Params) (i : Instr), p.Valid → i.wellFormed p = true → decodeBits p (encode i) = .ok i

/-- The other direction: what 67 bits decode to is well-formed, and its encoding is those bits, a read's ignored `wdata`
(R50) cleared. -/
def Obligations.EncodeOfDecode : Prop :=
  ∀ (p : Params) (b : BitVec 67) (i : Instr), p.Valid → decodeBits p b = .ok i →
    i.wellFormed p = true ∧
      encode i = if b.getLsbD 66 = true then b else b &&& ~~~((0xFFFFFFFF#32).setWidth 67)

/-- R54, R30: which requests are none of the 14 operations, and the name each is rejected by; every other request
decodes to an instruction with its own direction, size and address. -/
def Obligations.DecoderRejectsByName : Prop :=
  ∀ (p : Params) (r : Request),
    (decodeAddress p r.addr = .outside → decodeRequest p r = .error .outsideRegions) ∧
    (∀ k, decodeAddress p r.addr = .cfg k →
      (r.size ≠ .b32 → decodeRequest p r = .error .configSize) ∧
      (r.size = .b32 → k = 3#2 → decodeRequest p r = .error .reservedRegister) ∧
      (r.size = .b32 → k ≠ 3#2 → ∃ i, decodeRequest p r = .ok i ∧ i.addr = r.addr ∧ i.isBank = false ∧
        i.request.write = r.write ∧ i.request.size = r.size ∧ (r.write = true → i.wdata = r.wdata))) ∧
    (∀ rs, decodeAddress p r.addr = .bank rs →
      (r.size = .b32 ∨ r.size = .reserved → decodeRequest p r = .error .bankSize) ∧
      (r.size = .b8 ∨ r.size = .b16 → ∃ i, decodeRequest p r = .ok i ∧ i.addr = r.addr ∧ i.isBank = true ∧
        i.rsBit = rs ∧ i.request.write = r.write ∧ i.request.size = r.size ∧ (r.write = true → i.wdata = r.wdata)))

/-- R14, R27, R30: the decoder's slices say what the address ranges say. -/
def Obligations.AddressDecoderMatchesRanges : Prop :=
  ∀ (p : Params) (a : Word), p.Valid →
    (∀ k : BitVec 2, decodeAddress p a = .cfg k ↔ inConfigWord p k.toNat a = true) ∧
    (∀ rs, decodeAddress p a = .bank rs ↔ inBank p rs a = true) ∧
    (decodeAddress p a = .outside ↔
      ¬(p.cfgBase.toNat ≤ a.toNat ∧ a.toNat < p.cfgBase.toNat + 16) ∧ inWindow p a = false)

/-- R31: the sum of the data address never carries, the two addresses differ in bit `RS_BIT` and no other, both lie in
the window, and the decoder gives 0 for the first and 1 for the second. -/
def Obligations.CommandAndDataAddress : Prop :=
  ∀ p : Params, p.Valid →
    commandAddress p = p.bankBase ∧
    (dataAddress p).toNat = p.bankBase.toNat + 2 ^ p.rsBit ∧
    dataAddress p = p.bankBase ||| 1#32 <<< p.rsBit ∧
    (∀ j < 32, (commandAddress p).getLsbD j ≠ (dataAddress p).getLsbD j ↔ j = p.rsBit) ∧
    inWindow p (commandAddress p) = true ∧ inWindow p (dataAddress p) = true ∧
    decodeAddress p (commandAddress p) = .bank false ∧ decodeAddress p (dataAddress p) = .bank true

/-- R51, R53: under parameters that meet R5 every row of the opcode map has a request, its operands zero, that the
decoder reads as that row's operation (the model's choice of address: log 9). -/
def Obligations.EveryRowHasARequest : Prop :=
  ∀ p : Params, p.Valid → ∀ row ∈ opTable,
    ∃ r, requestOfTableWord p 8 row.pattern.toNat = some r ∧ opWord p r = row.pattern ∧
      decodeRequest p r = .ok (row.build r.addr 0)

/-! ### Steps -/

/-- A step runs the decoded instruction: with the sequencer idle and reset over, when the presented request
decodes to `i`, the step is `exec i` at the state in which that request is no longer presented. (`host`: log 5; a step
is one whole request: log 6.) -/
def Obligations.StepRunsDecodedInstruction : Prop :=
  ∀ (s : State) (r : Request) (rest : List Request) (i : Instr), s.Ready → s.host = r :: rest →
    decodeRequest s.params r = .ok i → step s = exec i { s with host := rest }

/-- R124: the order of checks for one request, whatever it is: the first that fails gives the cause of the error
response and no bus cycle occurs; a request that passes all of them is answered without error; one of neither region
is refused (R30; log 4). Reset overrides everything, up to the first edge after its release (R140). (`host`, `responses`
empty in reset: logs 5, 7.) -/
def Obligations.RequestChecksInOrder : Prop :=
  (∀ s : State, s.rst ≠ .over → ∃ t, step s = .next t ∧ AtResetValues t ∧ t.responses = []) ∧
  ∀ (s : State) (r : Request) (rest : List Request), s.Ready → s.host = r :: rest →
    let failed (c : Fault) : Prop := ∃ t, step s = .next t ∧ t.host = rest ∧
      t.responses = s.responses ++ [.error c] ∧ t.trace = s.trace
    let passed : Prop := ∃ t x, step s = .next t ∧ t.host = rest ∧ t.responses = s.responses ++ [x] ∧
      Response.isError x = false
    (decodeAddress s.params r.addr = .outside → step s = .refused .outsideRegions) ∧
    (∀ k, decodeAddress s.params r.addr = .cfg k →
      if r.size ≠ .b32 then failed .size
      else if r.addr.extractLsb' 0 2 ≠ 0b00#2 then failed .align
      else if k = 0b11#2 then failed .reserved
      else passed) ∧
    (∀ rs, decodeAddress s.params r.addr = .bank rs →
      if r.size = .b32 ∨ r.size = .reserved then failed .size
      else if r.size = .b16 ∧ r.addr.getLsbD 0 = true then failed .align
      else if s.bcr.getLsbD 0 = false then failed .disabled
      else if ¬LegalBcr s.bcr then failed .config
      else if r.size = .b16 ∧ s.bcr.getLsbD 4 = false then failed .width
      else passed)

/-- R30, R104: a request outside both regions is refused by a step; at the clock level it gets no response and nothing
changes but the cycle. (The refusal: log 4; `cycle`: log 7; `err` false and `rdata` absent without `ready`: log 21.) -/
def Obligations.OutsideRequestsAreNotFdbics : Prop :=
  ∀ (s : State) (r : Request) (rest : List Request), s.Ready → s.host = r :: rest →
    decodeAddress s.params r.addr = .outside →
    step s = .refused .outsideRegions ∧ portOut s = { ready := false, err := false, rdata := none } ∧
      clockEdge s = .next { s with cycle := s.cycle + 1 }

/-- R133, R123: while no request is presented nothing happens but the clock, and all pins are inactive.
(`cycle`: log 7; `err` false and `rdata` absent without `ready`: log 21.) -/
def Obligations.NothingHappensWithoutARequest : Prop :=
  ∀ s : State, s.Ready → s.host = [] →
    step s = .next { s with cycle := s.cycle + 1 } ∧ clockEdge s = .next { s with cycle := s.cycle + 1 } ∧
      pins s = pinsAtRest s ∧ portOut s = { ready := false, err := false, rdata := none }

/-- The only stops of the machine: a request outside both regions (R30; as a refusal of the step: log 4), and a host that
does not hold the request of the transfer in flight (the model's, log 20). No step stops with a fault: an error response
is a next state (the model's reading, log 3). -/
def Obligations.StopsAreNamed : Prop :=
  ∀ s : State, (∀ f, step s ≠ .fault f) ∧
    ∀ x, step s = .refused x →
      (x = .outsideRegions ∧ s.Ready ∧ ∃ r rest, s.host = r :: rest ∧ decodeAddress s.params r.addr = .outside) ∨
      (x = .requestNotHeld ∧ s.rst = .over ∧ (s.phase = .addr ∨ s.phase = .data) ∧
        ∀ r rest, s.host = r :: rest → ¬(r.write = s.cur.write ∧ r.addr = s.cur.addr))

/-! ### Configuration operations -/

/-- R61, R62, R63: a configuration write stores `wdata & MASK` in its own register and changes nothing else but the
response and the cycle; misaligned, it is an error response. (`cycle`: log 7.) -/
def Obligations.ConfigWritesStoreMaskedValue : Prop :=
  ∀ (s : State) (addr v : Word), s.Ready →
    (addr.extractLsb' 0 2 = 0#2 → addr.extractLsb' 2 2 ≠ 3#2 →
      exec (.cfgwrBcr addr v) s = .next (answered { s with bcr := v &&& 0x0000003F#32 } .written) ∧
      exec (.cfgwrRtr addr v) s = .next (answered { s with rtr := v &&& 0x000FFF0F#32 } .written) ∧
      exec (.cfgwrWtr addr v) s = .next (answered { s with wtr := v &&& 0x000FFF0F#32 } .written)) ∧
    (addr.extractLsb' 0 2 ≠ 0#2 →
      ∀ i ∈ [Instr.cfgwrBcr addr v, .cfgwrRtr addr v, .cfgwrWtr addr v],
        exec i s = .next (answered s (.error .align)))

/-- R64, R65, R66: a configuration read answers with the register and changes nothing else but the cycle; misaligned, it
is an error response. (`cycle`: log 7.) -/
def Obligations.ConfigReadsReturnRegister : Prop :=
  ∀ (s : State) (addr : Word), s.Ready →
    (addr.extractLsb' 0 2 = 0#2 → addr.extractLsb' 2 2 ≠ 3#2 →
      exec (.cfgrdBcr addr) s = .next (answered s (.value s.bcr)) ∧
      exec (.cfgrdRtr addr) s = .next (answered s (.value s.rtr)) ∧
      exec (.cfgrdWtr addr) s = .next (answered s (.value s.wtr))) ∧
    (addr.extractLsb' 0 2 ≠ 0#2 →
      ∀ i ∈ [Instr.cfgrdBcr addr, .cfgrdRtr addr, .cfgrdWtr addr],
        exec i s = .next (answered s (.error .align)))

/-- R19, R18, R16: reading a register after writing one gives the masked value if they are the same and the old value if
they are not; reserved codes of `BCR` are stored as written. (`dev`: log 2.) -/
def Obligations.ConfigReadBack : Prop :=
  ∀ (s : State) (k j : ConfigReg) (a b v : Word), s.Ready → s.params.Valid →
    (cfgwrOf k a v).wellFormed s.params = true → (cfgrdOf j b).wellFormed s.params = true →
    a.toNat % 4 = 0 → b.toNat % 4 = 0 →
    ∃ t u, exec (cfgwrOf k a v) s = .next t ∧ exec (cfgrdOf j b) t = .next u ∧
      u.responses = s.responses ++
        [.written, .value (if j = k then v &&& (match k with | .bcr => 0x0000003F#32 | _ => 0x000FFF0F#32)
          else s.readReg j)] ∧
      u.trace = s.trace ∧ pins u = pins s ∧ u.dev = s.dev

/-! ### Bank operations -/

/-- R71, R73: an 8-bit write on a live bank, either bus width, any address: one write cycle with the byte on `D[7:0]`
and, on a 16-bit bus, `D[15:8]` by `BYTE_FILL`; write timing; nothing else changes. (`cycle`, `dev`: logs 7, 2.) -/
def Obligations.ByteWritesRunOneCycle : Prop :=
  ∀ (s : State) (n : BusWidth) (addr v : Word), s.Ready → Live s n →
    let data := byteOnBus s.params.byteFill n (v.extractLsb' 0 8)
    exec (.wrcmd8 addr v) s = .next (afterWrite s false n addr data.all data) ∧
    exec (.wrdat8 addr v) s = .next (afterWrite s true n addr data.all data)

/-- R72, R74: a 16-bit write at an even address on a live 16-bit bus: one write cycle with `wdata[15:0]` unchanged on
the pins; write timing; nothing else changes. (`cycle`, `dev`: logs 7, 2.) -/
def Obligations.HalfwordWritesRunOneCycle : Prop :=
  ∀ (s : State) (addr v : Word), s.Ready → Live s .w16 → addr.getLsbD 0 = false →
    let d : Half := v.extractLsb' 0 16
    exec (.wrcmd16 addr v) s = .next (afterWrite s false .w16 addr d (.d16 d)) ∧
    exec (.wrdat16 addr v) s = .next (afterWrite s true .w16 addr d (.d16 d))

/-- R81, R83: an 8-bit read on a live bank, either bus width, any address: one read cycle; the host receives `D[7:0]`
zero-extended, whatever the device drives; read timing; nothing else changes. (The value is the free value of log 2;
`cycle`: log 7.) -/
def Obligations.ByteReadsRunOneCycle : Prop :=
  ∀ (s : State) (n : BusWidth) (addr : Word), s.Ready → Live s n →
    let din := Config.deviceDrives s.dev
    let data : PinData := match n with | .w8 => .d8 (din.extractLsb' 0 8) | .w16 => .d16 din
    exec (.rdcmd8 addr) s = .next (afterRead s false n addr data ((din.extractLsb' 0 8).setWidth 32)) ∧
    exec (.rddat8 addr) s = .next (afterRead s true n addr data ((din.extractLsb' 0 8).setWidth 32))

/-- R82, R84: a 16-bit read at an even address on a live 16-bit bus: one read cycle; the host receives the raw pin value
zero-extended; read timing; nothing else changes. (The value is the free value of log 2;
`cycle`: log 7.) -/
def Obligations.HalfwordReadsRunOneCycle : Prop :=
  ∀ (s : State) (addr : Word), s.Ready → Live s .w16 → addr.getLsbD 0 = false →
    let din := Config.deviceDrives s.dev
    exec (.rdcmd16 addr) s = .next (afterRead s false .w16 addr (.d16 din) (din.setWidth 32)) ∧
    exec (.rddat16 addr) s = .next (afterRead s true .w16 addr (.d16 din) (din.setWidth 32))

/-- R124 (3, 5, 6, 7), R121: the error responses of the eight bank operations, in checking order. (`cycle`: log 7.) -/
def Obligations.BankChecksInOrder : Prop :=
  ∀ (s : State) (addr v : Word), s.Ready →
    (∀ i ∈ [Instr.wrcmd16 addr v, .wrdat16 addr v, .rdcmd16 addr, .rddat16 addr],
      (addr.getLsbD 0 = true → exec i s = .next (answered s (.error .align))) ∧
      (addr.getLsbD 0 = false → s.bcr.getLsbD 0 = false → exec i s = .next (answered s (.error .disabled))) ∧
      (addr.getLsbD 0 = false → s.bcr.getLsbD 0 = true → ¬LegalBcr s.bcr →
        exec i s = .next (answered s (.error .config))) ∧
      (addr.getLsbD 0 = false → Live s .w8 → exec i s = .next (answered s (.error .width)))) ∧
    (∀ i ∈ [Instr.wrcmd8 addr v, .wrdat8 addr v, .rdcmd8 addr, .rddat8 addr],
      (s.bcr.getLsbD 0 = false → exec i s = .next (answered s (.error .disabled))) ∧
      (s.bcr.getLsbD 0 = true → ¬LegalBcr s.bcr → exec i s = .next (answered s (.error .config))))

/-- R120, R125: an error response changes nothing. Whatever the request, if a step's new response is an error, then
apart from that response, the cycle count and the request being over the state is as before. (`cycle`, `host`: logs 7,
5.) -/
def Obligations.ErrorResponseChangesNothing : Prop :=
  ∀ (s t : State) (c : Fault), s.Ready → step s = .next t → t.responses = s.responses ++ [.error c] →
    ∃ r rest, s.host = r :: rest ∧ t = answered { s with host := rest } (.error c)

/-- R36, R41, R70, R80: an instruction performs exactly one bus cycle if it is a bank operation whose checks pass,
with the direction, register-select value, address, width and timing of its request, and none otherwise. (`dev`: log
2.) -/
def Obligations.OneCyclePerAcceptedRequest : Prop :=
  ∀ (i : Instr) (s : State), s.Ready →
    (∀ n, i.isBank = true → bankCheck s.bcr i.request.size i.addr = .ok n →
      ∃ t e, exec i s = .next t ∧ t.trace = s.trace ++ [e] ∧ t.dev = s.dev + 1 ∧
        e.kind = (if i.request.write then .write else .read) ∧ e.rs = i.rsBit ∧ e.addr = i.addr ∧ e.data.width = n ∧
        e.tset = tripleAt (if i.request.write then s.wtr else s.rtr)) ∧
    ((i.isBank = true → ∀ n, bankCheck s.bcr i.request.size i.addr ≠ .ok n) →
      ∃ t, exec i s = .next t ∧ t.trace = s.trace ∧ t.dev = s.dev ∧ t.cur = s.cur)

/-- R18, R98: a write never depends on `RTR` and a read never on `WTR`: another value there is carried along and changes
nothing else. (For a read the two runs start from one device state, and the device is assumed to answer both alike: the
model's choice, log 2.) -/
def Obligations.TimingNeverCrossApplied : Prop :=
  ∀ (i : Instr) (s t : State) (x : Word), i.isBank = true → exec i s = .next t →
    (i.request.write = true → exec i { s with rtr := x } = .next { t with rtr := x }) ∧
    (i.request.write = false → exec i { s with wtr := x } = .next { t with wtr := x })

/-- R32, R34: two window addresses with the same bit `RS_BIT` are aliases: a request to either is answered alike and
performs the same bus cycle, but for the recorded host address. Only a 16-bit access looks at one more bit, bit 0,
which must then agree too. (For a read the two runs start from one device state, and the device is assumed to answer
both alike: the model's choice, log 2.) -/
def Obligations.WindowAddressesAlias : Prop :=
  ∀ (s : State) (r : Request) (rest : List Request) (b : Word) (rs : Bool), s.Ready → s.host = r :: rest →
    decodeAddress s.params r.addr = .bank rs → decodeAddress s.params b = .bank rs →
    (r.size = .b16 → b.getLsbD 0 = r.addr.getLsbD 0) →
    ∃ t u, step s = .next t ∧ step { s with host := { r with addr := b } :: rest } = .next u ∧
      t.responses = u.responses ∧
      ((t.trace = s.trace ∧ u.trace = s.trace) ∨
        ∃ e, e.rs = rs ∧ t.trace = s.trace ++ [e] ∧ u.trace = s.trace ++ [{ e with addr := b }])

/-- R37, R40, R52: any two bank reads in a row whose checks pass (`RDCMD8`, `RDDAT8`, `RDCMD16`, `RDDAT16` in any
pairing, at any addresses, on either bus width) are two bus cycles with two device values of their own, in request
order, also when the second repeats the first. (Free values and their index `dev`: log 2.) -/
def Obligations.ReadsAreNeverMerged : Prop :=
  ∀ (s : State) (n : BusWidth) (i j : Instr), s.Ready → Live s n →
    (∀ x ∈ [i, j], x.isBank = true ∧ x.request.write = false ∧
      (x.request.size = .b8 ∨ (n = .w16 ∧ x.addr.getLsbD 0 = false))) →
    let event (x : Instr) (din : Half) : BusEvent := ⟨.read, x.rsBit, x.addr,
      match n with | .w8 => .d8 (din.extractLsb' 0 8) | .w16 => .d16 din, tripleAt s.rtr⟩
    let value (x : Instr) (din : Half) : Word :=
      if x.request.size = .b8 then (din.extractLsb' 0 8).setWidth 32 else din.setWidth 32
    ∃ t u, exec i s = .next t ∧ exec j t = .next u ∧ u.dev = s.dev + 2 ∧
      u.trace = s.trace ++ [event i (Config.deviceDrives s.dev), event j (Config.deviceDrives (s.dev + 1))] ∧
      u.responses = s.responses ++
        [.value (value i (Config.deviceDrives s.dev)), .value (value j (Config.deviceDrives (s.dev + 1)))]

/-! ### Whole machine -/

/-- Every step keeps the invariant: legal parameters, reserved register bits 0, the counter within its phase, the
request in flight latched and held, every event in the window with its register-select value, reset values while in
reset. -/
def Obligations.StepKeepsInvariant : Prop := ∀ s t : State, Inv s → step s = .next t → Inv t

/-- Every clock cycle keeps the invariant; in particular `cnt` never wraps (R101). -/
def Obligations.ClockEdgeKeepsInvariant : Prop := ∀ s t : State, Inv s → clockEdge s = .next t → Inv t

/-- What the outside world does keeps the invariant: one more request, `rst_n` falling at any point, `rst_n` rising. -/
def Obligations.EnvironmentKeepsInvariant : Prop :=
  ∀ (s : State) (r : Request), Inv s → Inv (s.present r) ∧ Inv s.assertReset ∧ Inv s.releaseReset

/-- The state after reset meets the invariant, whatever the parameters. -/
def Obligations.ResetMeetsInvariant : Prop := ∀ p : Params, p.Valid → Inv (State.resetFor p)

/-- From a state that meets the invariant no step is refused because the host lets go of a request, and none faults.
(That refusal: log 20; an error response is a next state: log 3.) -/
def Obligations.HeldRequestsAreNeverRefused : Prop :=
  ∀ s : State, Inv s → step s ≠ .refused .requestNotHeld ∧
    ((∀ r rest, s.host = r :: rest → decodeAddress s.params r.addr ≠ .outside) → ∃ t, step s = .next t)

/-- R14, R61 to R63, R122: only its own `CFGWR` changes a configuration register, and no step changes the parameters. -/
def Obligations.RegistersChangeOnlyByConfigWrites : Prop :=
  ∀ s t : State, s.rst = .over → step s = .next t →
    t.params = s.params ∧
    (t.bcr ≠ s.bcr → ∃ r rest a v, s.host = r :: rest ∧ decodeRequest s.params r = .ok (.cfgwrBcr a v)) ∧
    (t.rtr ≠ s.rtr → ∃ r rest a v, s.host = r :: rest ∧ decodeRequest s.params r = .ok (.cfgwrRtr a v)) ∧
    (t.wtr ≠ s.wtr → ∃ r rest a v, s.host = r :: rest ∧ decodeRequest s.params r = .ok (.cfgwrWtr a v))

/-- R40, R41: requests are served in order, one at a time: a step takes at most one request off the host's list and then
appends exactly one response, the trace only grows, and by at most one event. (`host`,
`responses`: logs 5, 7.) -/
def Obligations.StrictRequestOrder : Prop :=
  ∀ s t : State, s.rst = .over → step s = .next t →
    ((t.host = s.host ∧ t.responses = s.responses ∧ t.trace = s.trace) ∨
      ∃ r x, s.host = r :: t.host ∧ t.responses = s.responses ++ [x] ∧
        (t.trace = s.trace ∨ ∃ e, e.addr = r.addr ∧ t.trace = s.trace ++ [e]) ∧
        (Response.isError x = true → t.trace = s.trace))

/-- R152, R120: a run in which a request faulted never becomes a good run again, short of a reset. (The response log:
log 7.) -/
def Obligations.FaultedRunStaysBad : Prop :=
  ∀ s t : State, s.rst = .over → step s = .next t → goodRun s = false → goodRun t = false

/-! ### The sequencer -/

/-- R91 to R95, R97, R100: refinement. For every accepted bank request the clock level, run for the period of the timing
set that the direction selects, ends in exactly the state of the one transaction. (`cycle`,
`dev`, `host`: logs 7, 2, 5.) -/
def Obligations.ClockLevelRefinesTransaction : Prop :=
  ∀ (s : State) (r : Request) (rest : List Request) (i : Instr) (rs : Bool) (n : BusWidth), s.Ready →
    s.host = r :: rest → decodeAddress s.params r.addr = .bank rs → bankCheck s.bcr r.size r.addr = .ok n →
    decodeRequest s.params r = .ok i →
    let t := tripleAt (if r.write then s.wtr else s.rtr)
    clockRun (t.addset.toNat + t.datast.toNat + 2 + t.busturn.toNat) s = exec i { s with host := rest }

/-- R103: an error response at the clock level: given in the cycle of the request, and at the closing edge nothing
changes but that the host has it; the next request can be accepted in the next cycle. (`host`: log 5; `rdata` absent:
log 21.) -/
def Obligations.ErrorResponseAtClockLevel : Prop :=
  ∀ (s : State) (r : Request) (rest : List Request) (c : Fault), s.Ready → s.host = r :: rest →
    (∃ k, decodeAddress s.params r.addr = .cfg k ∧ cfgCheck r.size r.addr = some c) ∨
      (∃ rs, decodeAddress s.params r.addr = .bank rs ∧ bankCheck s.bcr r.size r.addr = .error c) →
    portOut s = { ready := true, err := true, rdata := none } ∧
      ∃ t, clockEdge s = .next t ∧ pins t = pins s ∧ t.Ready ∧
        t = { s with host := rest, responses := s.responses ++ [.error c], cycle := t.cycle }

/-- R104: a configuration access at the clock level: answered in the cycle of the request, a read with the register's
value of that cycle, a write taking effect at the closing edge; while a transfer runs it waits, so the registers are
stable; a request of neither region gets nothing. (`host`: log 5; `rdata` absent on a write: log 21.) -/
def Obligations.ConfigAccessAtClockLevel : Prop :=
  (∀ (s : State) (r : Request) (rest : List Request), s.Ready → s.host = r :: rest →
    (∀ k, decodeAddress s.params r.addr = .cfg k → cfgCheck r.size r.addr = none →
      ∃ reg, regOfNumber k = some reg ∧
        portOut s = { ready := true, err := false, rdata := if r.write then none else some (s.readReg reg) } ∧
        ∃ t, clockEdge s = .next t ∧ pins t = pins s ∧
          t = if r.write then { s.writeReg reg r.wdata with
              host := rest, responses := s.responses ++ [.written], cycle := t.cycle }
            else { s with host := rest, responses := s.responses ++ [.value (s.readReg reg)], cycle := t.cycle }) ∧
    (decodeAddress s.params r.addr = .outside →
      (portOut s).ready = false ∧ ∃ t, clockEdge s = .next t ∧ t = { s with cycle := t.cycle })) ∧
  (∀ s t : State, s.rst = .over → s.phase ≠ .idle → clockEdge s = .next t →
    t.bcr = s.bcr ∧ t.rtr = s.rtr ∧ t.wtr = s.wtr)

/-- R103, R104, R151: a configuration access and a failing request take one clock cycle, in which the clock level does
what the step does. (`rdata` absent where it is not valid: log 21.) -/
def Obligations.ImmediateAnswersTakeOneCycle : Prop :=
  ∀ (s : State) (r : Request) (rest : List Request), s.Ready → s.host = r :: rest →
    decodeAddress s.params r.addr ≠ .outside →
    (∀ rs, decodeAddress s.params r.addr = .bank rs → ∀ n, bankCheck s.bcr r.size r.addr ≠ .ok n) →
    clockEdge s = step s ∧ (portOut s).ready = true ∧
      ∃ t x, step s = .next t ∧ t.responses = s.responses ++ [x] ∧ (portOut s).err = Response.isError x ∧
        (portOut s).rdata = match x with | .value v => some v | .written => none | .error _ => none

/-- R97: the phases of an accepted transfer, cycle by cycle from the accept cycle (cycle 0), the one cycle of it with a
response, and the first cycle in which the next request can be accepted. -/
def Obligations.PhaseSchedule : Prop :=
  ∀ (s : State) (r : Request) (rest : List Request) (rs : Bool) (n : BusWidth), s.Ready → s.host = r :: rest →
    decodeAddress s.params r.addr = .bank rs → bankCheck s.bcr r.size r.addr = .ok n →
    let t := tripleAt (if r.write then s.wtr else s.rtr)
    let A := t.addset.toNat
    let S := t.datast.toNat
    let B := t.busturn.toNat
    ∀ k, k ≤ A + S + 2 + B → ∃ u, clockRun k s = .next u ∧
      (u.phase = .idle ↔ k = 0 ∨ k = A + S + 2 + B) ∧
      (u.phase = .addr ↔ 1 ≤ k ∧ k ≤ A) ∧
      (u.phase = .data ↔ A + 1 ≤ k ∧ k ≤ A + S + 1) ∧
      (u.phase = .turn ↔ A + S + 2 ≤ k ∧ k ≤ A + S + 1 + B) ∧
      (k < A + S + 2 + B → ((portOut u).ready = true ↔ k = A + S + 1))

/-- R94, R99: the response of an accepted request comes in the last `DATA` cycle and in no other cycle of the
transfer; it is never an error, and a read's value is the lane of what is on the pins then. (Free value: log 2; `err`
false and `rdata` absent without `ready`: log 21.) -/
def Obligations.ResponseInLastDataCycle : Prop :=
  ∀ (s : State) (r : Request) (rest : List Request) (rs : Bool) (n : BusWidth), s.Ready → s.host = r :: rest →
    decodeAddress s.params r.addr = .bank rs → bankCheck s.bcr r.size r.addr = .ok n →
    let t := tripleAt (if r.write then s.wtr else s.rtr)
    ∀ k, k < t.addset.toNat + t.datast.toNat + 2 + t.busturn.toNat → ∃ u, clockRun k s = .next u ∧
      portOut u =
        if k = t.addset.toNat + t.datast.toNat + 1 then
          { ready := true, err := false,
            rdata := if r.write then none
              else some (if r.size = .b8 then ((Config.deviceDrives s.dev).extractLsb' 0 8).setWidth 32
                else (Config.deviceDrives s.dev).setWidth 32) }
        else { ready := false, err := false, rdata := none }

/-- R92, R93, R96: the pins of an accepted transfer, cycle by cycle: chip-select and register-select through `ADDR` and
`DATA`, exactly one strobe in `DATA`, a write's data from the first cycle after acceptance to the last `DATA` cycle. -/
def Obligations.PinWaveform : Prop :=
  ∀ (s : State) (r : Request) (rest : List Request) (rs : Bool) (n : BusWidth), s.Ready → s.host = r :: rest →
    decodeAddress s.params r.addr = .bank rs → bankCheck s.bcr r.size r.addr = .ok n →
    let t := tripleAt (if r.write then s.wtr else s.rtr)
    ∀ k, 1 ≤ k → k ≤ t.addset.toNat + t.datast.toNat + 2 + t.busturn.toNat → ∃ u, clockRun k s = .next u ∧
      pins u =
        if k ≤ t.addset.toNat + t.datast.toNat + 1 then
          { csN := false, rs := rs,
            wrN := !(r.write && decide (t.addset.toNat < k)),
            rdN := !(!r.write && decide (t.addset.toNat < k)),
            d := if r.write then some (match r.size with
                | .b8 => byteOnBus s.params.byteFill n (r.wdata.extractLsb' 0 8)
                | _ => .d16 (r.wdata.extractLsb' 0 16))
              else none }
        else { csN := true, rdN := true, wrN := true, rs := rs, d := none }

/-- R96: the pins by phase; the two strobes are never active together, a strobe is active only under chip-select, and
`RS` changes only at the edge that starts a transfer and is 0 after reset. -/
def Obligations.PinsByPhase : Prop :=
  (∀ s : State,
    (s.phase = .idle ∨ s.phase = .turn →
      pins s = { csN := true, rdN := true, wrN := true, rs := s.cur.rs, d := none }) ∧
    (s.phase = .addr → s.cur.write = true →
      pins s = { csN := false, rdN := true, wrN := true, rs := s.cur.rs, d := some (pinData s.cur.n s.cur.dout) }) ∧
    (s.phase = .addr → s.cur.write = false →
      pins s = { csN := false, rdN := true, wrN := true, rs := s.cur.rs, d := none }) ∧
    (s.phase = .data → s.cur.write = true →
      pins s = { csN := false, rdN := true, wrN := false, rs := s.cur.rs, d := some (pinData s.cur.n s.cur.dout) }) ∧
    (s.phase = .data → s.cur.write = false →
      pins s = { csN := false, rdN := false, wrN := true, rs := s.cur.rs, d := none }) ∧
    ¬((pins s).rdN = false ∧ (pins s).wrN = false) ∧
    ((pins s).rdN = false ∨ (pins s).wrN = false → (pins s).csN = false)) ∧
  (∀ s t : State, s.rst = .over → clockEdge s = .next t → (pins t).rs ≠ (pins s).rs →
    s.phase = .idle ∧ (t.phase = .addr ∨ t.phase = .data)) ∧
  ∀ p : Params, (pins (State.resetFor p)).rs = false

/-- R102: after the last `DATA` cycle of a transfer come at least `BUSTURN + 1` cycles with all control pins inactive
and `D` released. -/
def Obligations.IdleGapBetweenTransfers : Prop :=
  ∀ (s : State) (r : Request) (rest : List Request), s.rst = .over → s.phase = .data → s.cnt = 0 →
    s.host = r :: rest → r.write = s.cur.write → r.addr = s.cur.addr →
    ∀ k, 1 ≤ k → k ≤ s.cur.t.busturn.toNat + 1 → ∃ u, clockRun k s = .next u ∧
      pins u = { csN := true, rdN := true, wrN := true, rs := s.cur.rs, d := none }

/-- R104, R98, R46: while a transfer runs the registers, the parameters and the latch are stable, whatever is
presented. -/
def Obligations.TransferIsUndisturbed : Prop :=
  ∀ s t : State, s.rst = .over → s.phase ≠ .idle → clockEdge s = .next t →
    t.bcr = s.bcr ∧ t.rtr = s.rtr ∧ t.wtr = s.wtr ∧ t.params = s.params ∧ t.cur = s.cur

/-- R91: acceptance at the clock level: no response, an `IDLE` cycle on the pins, what the accepting edge writes, and
that it writes nothing else. -/
def Obligations.AcceptanceLatchesRequest : Prop :=
  ∀ (s : State) (r : Request) (rest : List Request) (rs : Bool) (n : BusWidth), s.Ready → s.host = r :: rest →
    decodeAddress s.params r.addr = .bank rs → bankCheck s.bcr r.size r.addr = .ok n →
    let t := tripleAt (if r.write then s.wtr else s.rtr)
    let dout : Half := if r.write then (match r.size with
        | .b8 => (byteOnBus s.params.byteFill n (r.wdata.extractLsb' 0 8)).all
        | _ => r.wdata.extractLsb' 0 16) else 0
    (portOut s).ready = false ∧ pins s = pinsAtRest s ∧
    ∃ u, clockEdge s = .next u ∧ u = { s with
      cur := ⟨r.write, rs, n, dout, r.addr, t⟩
      phase := if t.addset = 0 then .data else .addr
      cnt := if t.addset = 0 then t.datast else BitVec.ofNat 8 (t.addset.toNat - 1)
      cycle := u.cycle }

/-! ### Reset -/

/-- R26, R140: what reset leaves, right after reset, while the input is low, after it has returned to 1, and at and after
the first rising edge from then; no response at any of these; whatever the state before, reset is then over. (`rdata`
absent without `ready`: log 21; `host`: log 5.) -/
def Obligations.ResetValues : Prop :=
  (∀ p : Params, AtResetValues (State.resetFor p) ∧ (State.resetFor p).Ready ∧
    portOut (State.resetFor p) = { ready := false, err := false, rdata := none }) ∧
  (∀ s : State,
    let low := s.assertReset
    let high := low.releaseReset
    AtResetValues low ∧ portOut low = { ready := false, err := false, rdata := none } ∧
    AtResetValues high ∧ portOut high = { ready := false, err := false, rdata := none } ∧
    ∃ t, clockEdge high = .next t ∧ AtResetValues t ∧ t.Ready ∧ t.host = high.host)

/-- R140: while `rst_n = 0`, and at the first rising edge after that, nothing is accepted or answered: a step and a clock
cycle keep the reset values and leave the host's requests and the device alone; low it stays in reset, and that edge
ends it. (`host`, `dev`, `responses`, `rdata` absent: logs 5, 2, 7, 21.) -/
def Obligations.NothingIsAcceptedInReset : Prop :=
  ∀ s : State, s.rst ≠ .over → ∃ t, step s = .next t ∧ clockEdge s = .next t ∧ AtResetValues t ∧
    (s.rst = .asserted → t.rst = .asserted) ∧ (s.rst = .released → t.rst = .over) ∧
    t.host = s.host ∧ t.dev = s.dev ∧ t.responses = [] ∧
    portOut s = { ready := false, err := false, rdata := none }

/-- R141: reset during a transfer: the pins go inactive at once, the request in flight has no response and no event
and is not served later, and the device's state is another, unknown one (the model's free value: log 2, log 8). -/
def Obligations.ResetCutsTransferOff : Prop :=
  ∀ (s : State) (r : Request) (rest : List Request), s.phase = .addr ∨ s.phase = .data → s.host = r :: rest →
    let t := s.assertReset
    pins t = { csN := true, rdN := true, wrN := true, rs := false, d := none } ∧ t.host = rest ∧ t.trace = [] ∧
      t.responses = [] ∧ t.dev ≠ s.dev ∧ step t = .next t

/-! ### Pseudo-instructions -/

/-- R68: the fields of a timing word are the counts cut to their widths; for counts that fit it is the identity; the
word has no reserved bit. -/
def Obligations.TimingWordTruncates : Prop :=
  ∀ tp : TimingParameters,
    (tripleAt (timingWord tp)).addset.toNat = tp.addressSetup % 16 ∧
    (tripleAt (timingWord tp)).datast.toNat = tp.dataSetup % 256 ∧
    (tripleAt (timingWord tp)).busturn.toNat = tp.busTurnaround % 16 ∧
    timingWord tp &&& 0x000FFF0F#32 = timingWord tp ∧
    (FitsFields tp → (timingWord tp).toNat =
      tp.addressSetup + 2 ^ 8 * tp.dataSetup + 2 ^ 16 * tp.busTurnaround)

/-- R116: the initializer, from any state in which requests are served: three answers, no bus cycle, both timing words
in their registers and a live bank of the width asked for. (`cycle`, `host`, one step per request: logs 7, 5, 6.) -/
def Obligations.InitializerMakesBankLive : Prop :=
  ∀ (s : State) (rtp wtp : TimingParameters) (n : BusWidth) (rest : List Request), s.Ready → s.params.Valid →
    s.host = (initializer s.params rtp wtp n).map Instr.request ++ rest →
    ∃ t, runSteps 3 s = .next t ∧ Live t n ∧
      t = { s with
        host := rest, bcr := liveBcr n, rtr := timingWord rtp, wtr := timingWord wtp
        responses := s.responses ++ [.written, .written, .written], cycle := s.cycle + 3 }

/-- R110: on a live 16-bit bus the form the hardware widens and the form software widens as `BYTE_FILL` says have the
same effect, whichever value `BYTE_FILL` has. -/
def Obligations.CommandFormsAgree : Prop :=
  ∀ (s : State) (value : Byte), s.Ready → s.params.Valid → Live s .w16 →
    ∀ i ∈ writeCommand s.params value, ∀ j ∈ writeCommandWide s.params value,
      ∃ t, exec i s = .next t ∧ exec j s = .next t ∧
        t.trace = s.trace ++ [writeEvent s false s.params.bankBase (byteOnBus s.params.byteFill .w16 value)]

/-- R113, R115, R40: `send_command` on a live bank is `1 + length(params)` write cycles in sequence order, the first
at the command address and the others at the data address, each byte widened alike, each answered, nothing in between.
(The first form of R110: log 17; `host`: log 5; one step per request: log 6.) -/
def Obligations.SendCommandTrace : Prop :=
  ∀ (s : State) (n : BusWidth) (opcode : Byte) (params : List Byte) (rest : List Request), s.Ready →
    s.params.Valid → Live s n →
    s.host = (sendCommand s.params opcode params).map Instr.request ++ rest →
    ∃ t, runSteps (1 + params.length) s = .next t ∧ t.Ready ∧ t.host = rest ∧
      t.trace = s.trace ++ writeEvent s false (commandAddress s.params) (byteOnBus s.params.byteFill n opcode) ::
        params.map (fun b => writeEvent s true (dataAddress s.params) (byteOnBus s.params.byteFill n b)) ∧
      t.responses = s.responses ++ List.replicate (1 + params.length) .written ∧
      t.bcr = s.bcr ∧ t.rtr = s.rtr ∧ t.wtr = s.wtr

/-- R111, R114, R115 with R73, R74, R52: `send_data` on a live bank of width `n` is one write cycle at the data
address per element, in sequence order, each value unchanged on the `n` lines. A 16-bit bus needs `RS_BIT ≥ 1` (R5
(e)). (`host`: log 5; one step per element: log 6.) -/
def Obligations.SendDataTrace : Prop :=
  ∀ (s : State) (n : BusWidth) (payload : List Half) (rest : List Request), s.Ready → s.params.Valid →
    (n = .w16 → s.params.Reaches16) → Live s n →
    s.host = (sendData s.params n payload).map Instr.request ++ rest →
    ∃ t, runSteps payload.length s = .next t ∧ t.Ready ∧ t.host = rest ∧
      t.trace = s.trace ++ payload.map (fun w => writeEvent s true (dataAddress s.params)
        (match n with | .w8 => .d8 (w.extractLsb' 0 8) | .w16 => .d16 w)) ∧
      t.responses = s.responses ++ List.replicate payload.length .written ∧
      t.bcr = s.bcr ∧ t.rtr = s.rtr ∧ t.wtr = s.wtr

/-- R112: `read_data` on a live bank of width `n` is one read cycle at the data address, and its result is the value on
the `n` lines unmodified. (The value is the free value of log 2; `cycle`, `host`: logs 7, 5.) -/
def Obligations.ReadDataTrace : Prop :=
  ∀ (s : State) (n : BusWidth) (rest : List Request), s.Ready → s.params.Valid →
    (n = .w16 → s.params.Reaches16) → Live s n →
    s.host = (readData s.params n).map Instr.request ++ rest →
    let din := Config.deviceDrives s.dev
    step s = .next (afterRead { s with host := rest } true n (dataAddress s.params)
      (match n with | .w8 => .d8 (din.extractLsb' 0 8) | .w16 => .d16 din)
      (match n with | .w8 => (din.extractLsb' 0 8).setWidth 32 | .w16 => din.setWidth 32))

/-! ### The board -/

/-- R143: with the pins bound and register-select wired to bit `RS_BIT`, the board has what FDBIC puts on its pins, and the
device sees every cycle of the trace as the trace has it. (`Board` and what it shows are the model's form of the premise:
log 23.) -/
def Obligations.BoundPinsReachTheBoard : Prop :=
  (∀ (b : Board) (s : State), PinsBound b s.params s.cur.n →
    boardPins b (pins s) = { csN := some (pins s).csN, rdN := some (pins s).rdN, wrN := some (pins s).wrN,
                             rs := some (pins s).rs, lines := (pins s).lines, value := (pins s).value }) ∧
  (∀ (b : Board) (s : State), Inv s → ∀ e ∈ s.trace, PinsBound b s.params e.data.width →
    seenByDevice b e = { selected := true, rs := some e.rs, lines := e.data.lines, value := e.data.all })

/-- R146, R98: if the device accepts cycles with the counts in `RTR` and `WTR`, each for its own direction, it accepts
every cycle FDBIC performs, also the one in flight. (The premise is about the oracle: log 23.) -/
def Obligations.AcceptedCountsGiveAcceptedCycles : Prop :=
  ∀ (accepts : BusKind → TimingSet → Bool) (s t : State), Inv s → DeviceAccepts accepts s → step s = .next t →
    ∀ e ∈ t.trace, e ∈ s.trace ∨ accepts e.kind e.tset = true

/-! ### The end of reset -/

/-- R140 with R103, R104: a request held through reset gets nothing at the first rising edge after the return of `rst_n` and
is answered in the next cycle; as the bank is not live, no bus cycle starts, and a bank request's answer is the error
response. (That the request waits that one cycle: log 22; `host`, `responses`, `rdata` absent: logs 5, 7, 21.) -/
def Obligations.HeldRequestIsAnsweredAfterReset : Prop :=
  ∀ (s : State) (r : Request) (rest : List Request), s.rst = .released → s.host = r :: rest →
    decodeAddress s.params r.addr ≠ .outside →
    portOut s = { ready := false, err := false, rdata := none } ∧
    ∃ t u x, clockEdge s = .next t ∧ t.host = r :: rest ∧ t.responses = [] ∧ (portOut t).ready = true ∧
      (portOut t).err = Response.isError x ∧ clockEdge t = .next u ∧ u.host = rest ∧ u.responses = [x] ∧ u.trace = [] ∧
      (∀ rs, decodeAddress s.params r.addr = .bank rs → Response.isError x = true)
end

