-- ==== Sys2Proof/Laws/State.lean ====
section
/-! SUPPORT. One lemma per field per update of State. -/

namespace Sys2Proof.Machine.State

variable (s : State)

@[simp] theorem setHost_params (h : List Request) : (s.setHost h).params = s.params := rfl
@[simp] theorem setHost_rst (h : List Request) : (s.setHost h).rst = s.rst := rfl
@[simp] theorem setHost_host (h : List Request) : (s.setHost h).host = h := rfl
@[simp] theorem setHost_bcr (h : List Request) : (s.setHost h).bcr = s.bcr := rfl
@[simp] theorem setHost_rtr (h : List Request) : (s.setHost h).rtr = s.rtr := rfl
@[simp] theorem setHost_wtr (h : List Request) : (s.setHost h).wtr = s.wtr := rfl
@[simp] theorem setHost_phase (h : List Request) : (s.setHost h).phase = s.phase := rfl
@[simp] theorem setHost_cnt (h : List Request) : (s.setHost h).cnt = s.cnt := rfl
@[simp] theorem setHost_cur (h : List Request) : (s.setHost h).cur = s.cur := rfl
@[simp] theorem setHost_dev (h : List Request) : (s.setHost h).dev = s.dev := rfl
@[simp] theorem setHost_trace (h : List Request) : (s.setHost h).trace = s.trace := rfl
@[simp] theorem setHost_responses (h : List Request) : (s.setHost h).responses = s.responses := rfl
@[simp] theorem setHost_cycle (h : List Request) : (s.setHost h).cycle = s.cycle := rfl

@[simp] theorem setPhase_params (p : Phase) (c : BitVec 8) : (s.setPhase p c).params = s.params := rfl
@[simp] theorem setPhase_rst (p : Phase) (c : BitVec 8) : (s.setPhase p c).rst = s.rst := rfl
@[simp] theorem setPhase_host (p : Phase) (c : BitVec 8) : (s.setPhase p c).host = s.host := rfl
@[simp] theorem setPhase_bcr (p : Phase) (c : BitVec 8) : (s.setPhase p c).bcr = s.bcr := rfl
@[simp] theorem setPhase_rtr (p : Phase) (c : BitVec 8) : (s.setPhase p c).rtr = s.rtr := rfl
@[simp] theorem setPhase_wtr (p : Phase) (c : BitVec 8) : (s.setPhase p c).wtr = s.wtr := rfl
@[simp] theorem setPhase_phase (p : Phase) (c : BitVec 8) : (s.setPhase p c).phase = p := rfl
@[simp] theorem setPhase_cnt (p : Phase) (c : BitVec 8) : (s.setPhase p c).cnt = c := rfl
@[simp] theorem setPhase_cur (p : Phase) (c : BitVec 8) : (s.setPhase p c).cur = s.cur := rfl
@[simp] theorem setPhase_dev (p : Phase) (c : BitVec 8) : (s.setPhase p c).dev = s.dev := rfl
@[simp] theorem setPhase_trace (p : Phase) (c : BitVec 8) : (s.setPhase p c).trace = s.trace := rfl
@[simp] theorem setPhase_responses (p : Phase) (c : BitVec 8) : (s.setPhase p c).responses = s.responses := rfl
@[simp] theorem setPhase_cycle (p : Phase) (c : BitVec 8) : (s.setPhase p c).cycle = s.cycle := rfl

@[simp] theorem setCur_params (c : TransferLatch) : (s.setCur c).params = s.params := rfl
@[simp] theorem setCur_rst (c : TransferLatch) : (s.setCur c).rst = s.rst := rfl
@[simp] theorem setCur_host (c : TransferLatch) : (s.setCur c).host = s.host := rfl
@[simp] theorem setCur_bcr (c : TransferLatch) : (s.setCur c).bcr = s.bcr := rfl
@[simp] theorem setCur_rtr (c : TransferLatch) : (s.setCur c).rtr = s.rtr := rfl
@[simp] theorem setCur_wtr (c : TransferLatch) : (s.setCur c).wtr = s.wtr := rfl
@[simp] theorem setCur_phase (c : TransferLatch) : (s.setCur c).phase = s.phase := rfl
@[simp] theorem setCur_cnt (c : TransferLatch) : (s.setCur c).cnt = s.cnt := rfl
@[simp] theorem setCur_cur (c : TransferLatch) : (s.setCur c).cur = c := rfl
@[simp] theorem setCur_dev (c : TransferLatch) : (s.setCur c).dev = s.dev := rfl
@[simp] theorem setCur_trace (c : TransferLatch) : (s.setCur c).trace = s.trace := rfl
@[simp] theorem setCur_responses (c : TransferLatch) : (s.setCur c).responses = s.responses := rfl
@[simp] theorem setCur_cycle (c : TransferLatch) : (s.setCur c).cycle = s.cycle := rfl

@[simp] theorem addEvent_params (e : BusEvent) : (s.addEvent e).params = s.params := rfl
@[simp] theorem addEvent_rst (e : BusEvent) : (s.addEvent e).rst = s.rst := rfl
@[simp] theorem addEvent_host (e : BusEvent) : (s.addEvent e).host = s.host := rfl
@[simp] theorem addEvent_bcr (e : BusEvent) : (s.addEvent e).bcr = s.bcr := rfl
@[simp] theorem addEvent_rtr (e : BusEvent) : (s.addEvent e).rtr = s.rtr := rfl
@[simp] theorem addEvent_wtr (e : BusEvent) : (s.addEvent e).wtr = s.wtr := rfl
@[simp] theorem addEvent_phase (e : BusEvent) : (s.addEvent e).phase = s.phase := rfl
@[simp] theorem addEvent_cnt (e : BusEvent) : (s.addEvent e).cnt = s.cnt := rfl
@[simp] theorem addEvent_cur (e : BusEvent) : (s.addEvent e).cur = s.cur := rfl
@[simp] theorem addEvent_dev (e : BusEvent) : (s.addEvent e).dev = s.dev := rfl
@[simp] theorem addEvent_trace (e : BusEvent) : (s.addEvent e).trace = s.trace ++ [e] := rfl
@[simp] theorem addEvent_responses (e : BusEvent) : (s.addEvent e).responses = s.responses := rfl
@[simp] theorem addEvent_cycle (e : BusEvent) : (s.addEvent e).cycle = s.cycle := rfl

@[simp] theorem addResponse_params (r : Response) : (s.addResponse r).params = s.params := rfl
@[simp] theorem addResponse_rst (r : Response) : (s.addResponse r).rst = s.rst := rfl
@[simp] theorem addResponse_host (r : Response) : (s.addResponse r).host = s.host := rfl
@[simp] theorem addResponse_bcr (r : Response) : (s.addResponse r).bcr = s.bcr := rfl
@[simp] theorem addResponse_rtr (r : Response) : (s.addResponse r).rtr = s.rtr := rfl
@[simp] theorem addResponse_wtr (r : Response) : (s.addResponse r).wtr = s.wtr := rfl
@[simp] theorem addResponse_phase (r : Response) : (s.addResponse r).phase = s.phase := rfl
@[simp] theorem addResponse_cnt (r : Response) : (s.addResponse r).cnt = s.cnt := rfl
@[simp] theorem addResponse_cur (r : Response) : (s.addResponse r).cur = s.cur := rfl
@[simp] theorem addResponse_dev (r : Response) : (s.addResponse r).dev = s.dev := rfl
@[simp] theorem addResponse_trace (r : Response) : (s.addResponse r).trace = s.trace := rfl
@[simp] theorem addResponse_responses (r : Response) : (s.addResponse r).responses = s.responses ++ [r] := rfl
@[simp] theorem addResponse_cycle (r : Response) : (s.addResponse r).cycle = s.cycle := rfl

@[simp] theorem advance_params (k : Nat) : (s.advance k).params = s.params := rfl
@[simp] theorem advance_rst (k : Nat) : (s.advance k).rst = s.rst := rfl
@[simp] theorem advance_host (k : Nat) : (s.advance k).host = s.host := rfl
@[simp] theorem advance_bcr (k : Nat) : (s.advance k).bcr = s.bcr := rfl
@[simp] theorem advance_rtr (k : Nat) : (s.advance k).rtr = s.rtr := rfl
@[simp] theorem advance_wtr (k : Nat) : (s.advance k).wtr = s.wtr := rfl
@[simp] theorem advance_phase (k : Nat) : (s.advance k).phase = s.phase := rfl
@[simp] theorem advance_cnt (k : Nat) : (s.advance k).cnt = s.cnt := rfl
@[simp] theorem advance_cur (k : Nat) : (s.advance k).cur = s.cur := rfl
@[simp] theorem advance_dev (k : Nat) : (s.advance k).dev = s.dev := rfl
@[simp] theorem advance_trace (k : Nat) : (s.advance k).trace = s.trace := rfl
@[simp] theorem advance_responses (k : Nat) : (s.advance k).responses = s.responses := rfl
@[simp] theorem advance_cycle (k : Nat) : (s.advance k).cycle = s.cycle + k := rfl

@[simp] theorem stepDevice_params : (s.stepDevice).params = s.params := rfl
@[simp] theorem stepDevice_rst : (s.stepDevice).rst = s.rst := rfl
@[simp] theorem stepDevice_host : (s.stepDevice).host = s.host := rfl
@[simp] theorem stepDevice_bcr : (s.stepDevice).bcr = s.bcr := rfl
@[simp] theorem stepDevice_rtr : (s.stepDevice).rtr = s.rtr := rfl
@[simp] theorem stepDevice_wtr : (s.stepDevice).wtr = s.wtr := rfl
@[simp] theorem stepDevice_phase : (s.stepDevice).phase = s.phase := rfl
@[simp] theorem stepDevice_cnt : (s.stepDevice).cnt = s.cnt := rfl
@[simp] theorem stepDevice_cur : (s.stepDevice).cur = s.cur := rfl
@[simp] theorem stepDevice_dev : (s.stepDevice).dev = s.dev + 1 := rfl
@[simp] theorem stepDevice_trace : (s.stepDevice).trace = s.trace := rfl
@[simp] theorem stepDevice_responses : (s.stepDevice).responses = s.responses := rfl
@[simp] theorem stepDevice_cycle : (s.stepDevice).cycle = s.cycle := rfl

@[simp] theorem writeReg_bcr_params (v : Word) : (s.writeReg .bcr v).params = s.params := rfl
@[simp] theorem writeReg_bcr_rst (v : Word) : (s.writeReg .bcr v).rst = s.rst := rfl
@[simp] theorem writeReg_bcr_host (v : Word) : (s.writeReg .bcr v).host = s.host := rfl
@[simp] theorem writeReg_bcr_bcr (v : Word) : (s.writeReg .bcr v).bcr = v &&& regMask .bcr := rfl
@[simp] theorem writeReg_bcr_rtr (v : Word) : (s.writeReg .bcr v).rtr = s.rtr := rfl
@[simp] theorem writeReg_bcr_wtr (v : Word) : (s.writeReg .bcr v).wtr = s.wtr := rfl
@[simp] theorem writeReg_bcr_phase (v : Word) : (s.writeReg .bcr v).phase = s.phase := rfl
@[simp] theorem writeReg_bcr_cnt (v : Word) : (s.writeReg .bcr v).cnt = s.cnt := rfl
@[simp] theorem writeReg_bcr_cur (v : Word) : (s.writeReg .bcr v).cur = s.cur := rfl
@[simp] theorem writeReg_bcr_dev (v : Word) : (s.writeReg .bcr v).dev = s.dev := rfl
@[simp] theorem writeReg_bcr_trace (v : Word) : (s.writeReg .bcr v).trace = s.trace := rfl
@[simp] theorem writeReg_bcr_responses (v : Word) : (s.writeReg .bcr v).responses = s.responses := rfl
@[simp] theorem writeReg_bcr_cycle (v : Word) : (s.writeReg .bcr v).cycle = s.cycle := rfl

@[simp] theorem writeReg_rtr_params (v : Word) : (s.writeReg .rtr v).params = s.params := rfl
@[simp] theorem writeReg_rtr_rst (v : Word) : (s.writeReg .rtr v).rst = s.rst := rfl
@[simp] theorem writeReg_rtr_host (v : Word) : (s.writeReg .rtr v).host = s.host := rfl
@[simp] theorem writeReg_rtr_bcr (v : Word) : (s.writeReg .rtr v).bcr = s.bcr := rfl
@[simp] theorem writeReg_rtr_rtr (v : Word) : (s.writeReg .rtr v).rtr = v &&& regMask .rtr := rfl
@[simp] theorem writeReg_rtr_wtr (v : Word) : (s.writeReg .rtr v).wtr = s.wtr := rfl
@[simp] theorem writeReg_rtr_phase (v : Word) : (s.writeReg .rtr v).phase = s.phase := rfl
@[simp] theorem writeReg_rtr_cnt (v : Word) : (s.writeReg .rtr v).cnt = s.cnt := rfl
@[simp] theorem writeReg_rtr_cur (v : Word) : (s.writeReg .rtr v).cur = s.cur := rfl
@[simp] theorem writeReg_rtr_dev (v : Word) : (s.writeReg .rtr v).dev = s.dev := rfl
@[simp] theorem writeReg_rtr_trace (v : Word) : (s.writeReg .rtr v).trace = s.trace := rfl
@[simp] theorem writeReg_rtr_responses (v : Word) : (s.writeReg .rtr v).responses = s.responses := rfl
@[simp] theorem writeReg_rtr_cycle (v : Word) : (s.writeReg .rtr v).cycle = s.cycle := rfl

@[simp] theorem writeReg_wtr_params (v : Word) : (s.writeReg .wtr v).params = s.params := rfl
@[simp] theorem writeReg_wtr_rst (v : Word) : (s.writeReg .wtr v).rst = s.rst := rfl
@[simp] theorem writeReg_wtr_host (v : Word) : (s.writeReg .wtr v).host = s.host := rfl
@[simp] theorem writeReg_wtr_bcr (v : Word) : (s.writeReg .wtr v).bcr = s.bcr := rfl
@[simp] theorem writeReg_wtr_rtr (v : Word) : (s.writeReg .wtr v).rtr = s.rtr := rfl
@[simp] theorem writeReg_wtr_wtr (v : Word) : (s.writeReg .wtr v).wtr = v &&& regMask .wtr := rfl
@[simp] theorem writeReg_wtr_phase (v : Word) : (s.writeReg .wtr v).phase = s.phase := rfl
@[simp] theorem writeReg_wtr_cnt (v : Word) : (s.writeReg .wtr v).cnt = s.cnt := rfl
@[simp] theorem writeReg_wtr_cur (v : Word) : (s.writeReg .wtr v).cur = s.cur := rfl
@[simp] theorem writeReg_wtr_dev (v : Word) : (s.writeReg .wtr v).dev = s.dev := rfl
@[simp] theorem writeReg_wtr_trace (v : Word) : (s.writeReg .wtr v).trace = s.trace := rfl
@[simp] theorem writeReg_wtr_responses (v : Word) : (s.writeReg .wtr v).responses = s.responses := rfl
@[simp] theorem writeReg_wtr_cycle (v : Word) : (s.writeReg .wtr v).cycle = s.cycle := rfl

@[simp] theorem readReg_bcr : s.readReg .bcr = s.bcr := rfl
@[simp] theorem readReg_rtr : s.readReg .rtr = s.rtr := rfl
@[simp] theorem readReg_wtr : s.readReg .wtr = s.wtr := rfl

@[simp] theorem timingFor_true : s.timingFor true = timingOf s.wtr := rfl
@[simp] theorem timingFor_false : s.timingFor false = timingOf s.rtr := rfl

end Sys2Proof.Machine.State
end

