-- ==== Sys2Proof/Laws/Board.lean ====
section
/-! SUPPORT. What the board shows, once for each of its functions. -/

namespace Sys2Proof.Machine

@[simp] theorem whenBound_true (level : Bool) : whenBound true level = some level := rfl
@[simp] theorem whenBound_false (level : Bool) : whenBound false level = none := rfl

/-- The value of a pin stays within its lines. -/
@[simp] theorem PinData.all_and_lines (d : PinData) : d.all &&& d.lines = d.all := by
  cases d with
  | d8 v => exact (by decide : ∀ v : Byte, (PinData.d8 v).all &&& (PinData.d8 v).lines = (PinData.d8 v).all) v
  | d16 v => exact BitVec.and_allOnes (x := v)

/-- A mask that has the `n` lines of the bus keeps all lines of a pin value of that width. -/
theorem PinData.lines_and_of_bound {d : PinData} {m : Half} (h : ∀ j < d.width.bits, m.getLsbD j = true) :
    d.lines &&& m = d.lines := by
  apply BitVec.eq_of_getLsbD_eq
  intro j hj
  rw [BitVec.getLsbD_and]
  by_cases hl : d.lines.getLsbD j = true
  · have hb : j < d.width.bits := by
      cases d with
      | d8 v =>
        have : ∀ j < 16, (0x00FF#16).getLsbD j = true → j < 8 := by decide
        exact this j hj hl
      | d16 v => exact hj
    rw [hl, h j hb]; rfl
  · rw [Bool.not_eq_true] at hl
    rw [hl]; rfl

/-- The same for the value on the lines. -/
theorem PinData.all_and_of_bound {d : PinData} {m : Half} (h : ∀ j < d.width.bits, m.getLsbD j = true) :
    d.all &&& m = d.all := by
  rw [← PinData.all_and_lines d, BitVec.and_assoc, PinData.lines_and_of_bound h]

/-- R145: the board of the parameters has the pins of a bus of width `DPINS` bound. -/
theorem pinsBound_ofParams (p : Params) : PinsBound (Board.ofParams p) p p.dpins := by
  refine ⟨⟨rfl, rfl, rfl, rfl⟩, ?_, rfl⟩
  cases h : p.dpins <;> simp only [Board.ofParams, h] <;> decide

end Sys2Proof.Machine
end

