-- ==== Sys2Proof/Laws/PerInstr.lean ====
section
/-! SUPPORT. Facts about every instruction as syntax, one lemma per constructor. -/

namespace Sys2Proof.Laws.OpcodeRow

/-- The instruction's operation word selects a row of the opcode map, and that row builds it back from its address and
write value. -/
def Statement (i : Instr) : Prop := (lookupOp i.opcode).map (fun row => row.build i.addr i.wdata) = some i

theorem cfgrdBcr (a : Word) : Statement (.cfgrdBcr a) := by
  simp [Statement, lookupOp, opTable, configRows, bankRows, Instr.opcode, Instr.addr, Instr.wdata]
theorem cfgrdRtr (a : Word) : Statement (.cfgrdRtr a) := by
  simp [Statement, lookupOp, opTable, configRows, bankRows, Instr.opcode, Instr.addr, Instr.wdata]
theorem cfgrdWtr (a : Word) : Statement (.cfgrdWtr a) := by
  simp [Statement, lookupOp, opTable, configRows, bankRows, Instr.opcode, Instr.addr, Instr.wdata]
theorem cfgwrBcr (a v : Word) : Statement (.cfgwrBcr a v) := by
  simp [Statement, lookupOp, opTable, configRows, bankRows, Instr.opcode, Instr.addr, Instr.wdata]
theorem cfgwrRtr (a v : Word) : Statement (.cfgwrRtr a v) := by
  simp [Statement, lookupOp, opTable, configRows, bankRows, Instr.opcode, Instr.addr, Instr.wdata]
theorem cfgwrWtr (a v : Word) : Statement (.cfgwrWtr a v) := by
  simp [Statement, lookupOp, opTable, configRows, bankRows, Instr.opcode, Instr.addr, Instr.wdata]
theorem rdcmd8 (a : Word) : Statement (.rdcmd8 a) := by
  simp [Statement, lookupOp, opTable, configRows, bankRows, Instr.opcode, Instr.addr, Instr.wdata]
theorem rddat8 (a : Word) : Statement (.rddat8 a) := by
  simp [Statement, lookupOp, opTable, configRows, bankRows, Instr.opcode, Instr.addr, Instr.wdata]
theorem rdcmd16 (a : Word) : Statement (.rdcmd16 a) := by
  simp [Statement, lookupOp, opTable, configRows, bankRows, Instr.opcode, Instr.addr, Instr.wdata]
theorem rddat16 (a : Word) : Statement (.rddat16 a) := by
  simp [Statement, lookupOp, opTable, configRows, bankRows, Instr.opcode, Instr.addr, Instr.wdata]
theorem wrcmd8 (a v : Word) : Statement (.wrcmd8 a v) := by
  simp [Statement, lookupOp, opTable, configRows, bankRows, Instr.opcode, Instr.addr, Instr.wdata]
theorem wrdat8 (a v : Word) : Statement (.wrdat8 a v) := by
  simp [Statement, lookupOp, opTable, configRows, bankRows, Instr.opcode, Instr.addr, Instr.wdata]
theorem wrcmd16 (a v : Word) : Statement (.wrcmd16 a v) := by
  simp [Statement, lookupOp, opTable, configRows, bankRows, Instr.opcode, Instr.addr, Instr.wdata]
theorem wrdat16 (a v : Word) : Statement (.wrdat16 a v) := by
  simp [Statement, lookupOp, opTable, configRows, bankRows, Instr.opcode, Instr.addr, Instr.wdata]

end Sys2Proof.Laws.OpcodeRow
end

