-- ==== Sys2Proof/Laws/Decode.lean ====
section
/-! SUPPORT. Lemmas about the address decoder, the request bits and the opcode map. -/

namespace Sys2Proof

@[simp] theorem Size.ofBits_toBits (z : Size) : Size.ofBits z.toBits = z := by cases z <;> rfl

@[simp] theorem Size.toBits_ofBits (b : BitVec 2) : (Size.ofBits b).toBits = b := by
  revert b; decide

@[simp] theorem Request.ofBits_toBits (r : Request) : Request.ofBits r.toBits = r := by
  obtain ⟨w, z, a, v⟩ := r
  have hsize : (Request.toBits ⟨w, z, a, v⟩).extractLsb' 64 2 = z.toBits := by
    ext i hi
    have : i = 0 ∨ i = 1 := by omega
    rcases this with rfl | rfl <;> simp [Request.toBits, BitVec.getElem_shiftLeft]
  have haddr : (Request.toBits ⟨w, z, a, v⟩).extractLsb' 32 32 = a := by
    ext i hi
    simp [Request.toBits, hi, show 32 + i < 64 by omega, show 32 + i < 66 by omega,
      show 32 + i < 67 by omega]
  have hdata : (Request.toBits ⟨w, z, a, v⟩).extractLsb' 0 32 = v := by
    ext i hi
    simp [Request.toBits, hi, show i < 64 by omega, show i < 66 by omega, show i < 67 by omega]
  have hwrite : (Request.toBits ⟨w, z, a, v⟩).getLsbD 66 = w := by
    simp [Request.toBits]
  simp only [Request.ofBits, hsize, haddr, hdata, hwrite, Size.ofBits_toBits]

@[simp] theorem Request.toBits_ofBits (b : BitVec 67) : (Request.ofBits b).toBits = b := by
  apply BitVec.eq_of_getLsbD_eq
  intro i hi
  simp only [Request.toBits, Request.ofBits, Size.toBits_ofBits, BitVec.getLsbD_or, BitVec.getLsbD_shiftLeft,
    BitVec.getLsbD_setWidth, BitVec.getLsbD_extractLsb', BitVec.getLsbD_ofBool]
  by_cases h32 : i < 32
  · simp [h32, show i < 64 by omega, show i < 66 by omega, hi]
  · by_cases h64 : i < 64
    · simp [h32, h64, show i < 66 by omega, hi, show i - 32 < 67 by omega, show i - 32 < 32 by omega,
        show 32 + (i - 32) = i by omega]
    · by_cases h66 : i < 66
      · simp [h32, h64, h66, hi, show i - 64 < 67 by omega, show i - 64 < 2 by omega, show ¬ i - 32 < 32 by omega,
          show 64 + (i - 64) = i by omega]
      · obtain rfl : i = 66 := by omega
        simp

/-! ### The request of each instruction -/

@[simp] theorem Instr.request_cfgrdBcr (a : Word) : (Instr.cfgrdBcr a).request = ⟨false, .b32, a, 0⟩ := by
  simp [Instr.request, Instr.opcode, Instr.addr, Instr.wdata, Size.ofBits]

@[simp] theorem Instr.request_cfgrdRtr (a : Word) : (Instr.cfgrdRtr a).request = ⟨false, .b32, a, 0⟩ := by
  simp [Instr.request, Instr.opcode, Instr.addr, Instr.wdata, Size.ofBits]

@[simp] theorem Instr.request_cfgrdWtr (a : Word) : (Instr.cfgrdWtr a).request = ⟨false, .b32, a, 0⟩ := by
  simp [Instr.request, Instr.opcode, Instr.addr, Instr.wdata, Size.ofBits]

@[simp] theorem Instr.request_cfgwrBcr (a v : Word) : (Instr.cfgwrBcr a v).request = ⟨true, .b32, a, v⟩ := by
  simp [Instr.request, Instr.opcode, Instr.addr, Instr.wdata, Size.ofBits]

@[simp] theorem Instr.request_cfgwrRtr (a v : Word) : (Instr.cfgwrRtr a v).request = ⟨true, .b32, a, v⟩ := by
  simp [Instr.request, Instr.opcode, Instr.addr, Instr.wdata, Size.ofBits]

@[simp] theorem Instr.request_cfgwrWtr (a v : Word) : (Instr.cfgwrWtr a v).request = ⟨true, .b32, a, v⟩ := by
  simp [Instr.request, Instr.opcode, Instr.addr, Instr.wdata, Size.ofBits]

@[simp] theorem Instr.request_rdcmd8 (a : Word) : (Instr.rdcmd8 a).request = ⟨false, .b8, a, 0⟩ := by
  simp [Instr.request, Instr.opcode, Instr.addr, Instr.wdata, Size.ofBits]

@[simp] theorem Instr.request_rddat8 (a : Word) : (Instr.rddat8 a).request = ⟨false, .b8, a, 0⟩ := by
  simp [Instr.request, Instr.opcode, Instr.addr, Instr.wdata, Size.ofBits]

@[simp] theorem Instr.request_rdcmd16 (a : Word) : (Instr.rdcmd16 a).request = ⟨false, .b16, a, 0⟩ := by
  simp [Instr.request, Instr.opcode, Instr.addr, Instr.wdata, Size.ofBits]

@[simp] theorem Instr.request_rddat16 (a : Word) : (Instr.rddat16 a).request = ⟨false, .b16, a, 0⟩ := by
  simp [Instr.request, Instr.opcode, Instr.addr, Instr.wdata, Size.ofBits]

@[simp] theorem Instr.request_wrcmd8 (a v : Word) : (Instr.wrcmd8 a v).request = ⟨true, .b8, a, v⟩ := by
  simp [Instr.request, Instr.opcode, Instr.addr, Instr.wdata, Size.ofBits]

@[simp] theorem Instr.request_wrdat8 (a v : Word) : (Instr.wrdat8 a v).request = ⟨true, .b8, a, v⟩ := by
  simp [Instr.request, Instr.opcode, Instr.addr, Instr.wdata, Size.ofBits]

@[simp] theorem Instr.request_wrcmd16 (a v : Word) : (Instr.wrcmd16 a v).request = ⟨true, .b16, a, v⟩ := by
  simp [Instr.request, Instr.opcode, Instr.addr, Instr.wdata, Size.ofBits]

@[simp] theorem Instr.request_wrdat16 (a v : Word) : (Instr.wrdat16 a v).request = ⟨true, .b16, a, v⟩ := by
  simp [Instr.request, Instr.opcode, Instr.addr, Instr.wdata, Size.ofBits]

/-- Two addresses agree above bit `k` exactly when they lie in the same aligned block of `2 ^ k` bytes. -/
theorem ushiftRight_eq_iff (a b : Word) (k : Nat) : a >>> k = b >>> k ↔ a.toNat / 2 ^ k = b.toNat / 2 ^ k := by
  rw [← BitVec.toNat_inj]; simp [Nat.shiftRight_eq_div_pow]

/-- Each instruction's operation word selects the row that builds it back. -/
theorem opcodeRow (i : Instr) : Laws.OpcodeRow.Statement i := by
  cases i
  case cfgrdBcr => exact Laws.OpcodeRow.cfgrdBcr _
  case cfgrdRtr => exact Laws.OpcodeRow.cfgrdRtr _
  case cfgrdWtr => exact Laws.OpcodeRow.cfgrdWtr _
  case cfgwrBcr => exact Laws.OpcodeRow.cfgwrBcr _ _
  case cfgwrRtr => exact Laws.OpcodeRow.cfgwrRtr _ _
  case cfgwrWtr => exact Laws.OpcodeRow.cfgwrWtr _ _
  case rdcmd8 => exact Laws.OpcodeRow.rdcmd8 _
  case rddat8 => exact Laws.OpcodeRow.rddat8 _
  case rdcmd16 => exact Laws.OpcodeRow.rdcmd16 _
  case rddat16 => exact Laws.OpcodeRow.rddat16 _
  case wrcmd8 => exact Laws.OpcodeRow.wrcmd8 _ _
  case wrdat8 => exact Laws.OpcodeRow.wrdat8 _ _
  case wrcmd16 => exact Laws.OpcodeRow.wrcmd16 _ _
  case wrdat16 => exact Laws.OpcodeRow.wrdat16 _ _

/-- A request whose operation word is an instruction's decodes to that instruction with the request's operands. -/
theorem decodeRequest_of_opcode {p : Params} {r : Request} {i : Instr} (h : opWord p r = i.opcode)
    (ha : r.addr = i.addr) (hv : r.wdata = i.wdata) : decodeRequest p r = .ok i := by
  obtain ⟨row, hrow, hbuild⟩ := Option.map_eq_some_iff.mp (opcodeRow i)
  simp only [decodeRequest, h, hrow, ha, hv, hbuild]

/-- What the decoder reads is the row its operation word selects, applied to the request's operands. -/
theorem decodeRequest_ok {p : Params} {r : Request} {i : Instr} (h : decodeRequest p r = .ok i) :
    ∃ row, lookupOp (opWord p r) = some row ∧ row.build r.addr r.wdata = i := by
  unfold decodeRequest at h
  split at h
  · next row hrow => exact ⟨row, hrow, by simpa using h⟩
  · cases h

/-- The fields of a packed operation word. -/
theorem packOp_inj {g g' : BitVec 2} {w w' : Bool} {z z' b b' : BitVec 2}
    (h : packOp g w z b = packOp g' w' z' b') : g = g' ∧ w = w' ∧ z = z' ∧ b = b' := by
  have bit (i : Nat) : (packOp g w z b).getLsbD i = (packOp g' w' z' b').getLsbD i := by rw [h]
  have h0 := bit 0
  have h1 := bit 1
  have h2 := bit 2
  have h3 := bit 3
  have h4 := bit 4
  have h5 := bit 5
  have h6 := bit 6
  simp only [packOp, BitVec.getLsbD_or, BitVec.getLsbD_shiftLeft, BitVec.getLsbD_setWidth, BitVec.getLsbD_ofBool]
    at h0 h1 h2 h3 h4 h5 h6
  have two {x y : BitVec 2} (e0 : x.getLsbD 0 = y.getLsbD 0) (e1 : x.getLsbD 1 = y.getLsbD 1) : x = y := by
    apply BitVec.eq_of_getLsbD_eq
    intro i hi
    rcases (by omega : i = 0 ∨ i = 1) with rfl | rfl
    · exact e0
    · exact e1
  refine ⟨two ?_ ?_, ?_, two ?_ ?_, two ?_ ?_⟩
  · simpa using h5
  · simpa using h6
  · simpa using h4
  · simpa using h2
  · simpa using h3
  · simpa using h0
  · simpa using h1

@[simp] theorem packOp_region (g : BitVec 2) (w : Bool) (z b : BitVec 2) : (packOp g w z b).extractLsb' 5 2 = g := by
  revert g w z b; decide

@[simp] theorem packOp_write (g : BitVec 2) (w : Bool) (z b : BitVec 2) : (packOp g w z b).getLsbD 4 = w := by
  revert g w z b; decide

@[simp] theorem packOp_size (g : BitVec 2) (w : Bool) (z b : BitVec 2) : (packOp g w z b).extractLsb' 2 2 = z := by
  revert g w z b; decide

@[simp] theorem packOp_sub (g : BitVec 2) (w : Bool) (z b : BitVec 2) : (packOp g w z b).extractLsb' 0 2 = b := by
  revert g w z b; decide

/-! ### Address ranges -/

/-- The slice `a[31:k]` equals that of an aligned base exactly when `a` lies in the base's block. -/
theorem ushiftRight_eq_iff_range (a b : Word) (k : Nat) (hb : b.toNat % 2 ^ k = 0) :
    a >>> k = b >>> k ↔ b.toNat ≤ a.toNat ∧ a.toNat < b.toNat + 2 ^ k := by
  rw [ushiftRight_eq_iff]
  have hp : 0 < 2 ^ k := Nat.two_pow_pos k
  have hd := Nat.div_add_mod b.toNat (2 ^ k)
  rw [hb, Nat.add_zero] at hd
  have h1 := Nat.div_add_mod a.toNat (2 ^ k)
  constructor
  · intro h
    have h2 := Nat.mod_lt a.toNat hp
    rw [h] at h1
    omega
  · rintro ⟨h2, h3⟩
    rw [Nat.div_eq_of_lt_le (k := b.toNat / 2 ^ k)]
    · rw [Nat.mul_comm]; omega
    · rw [Nat.add_mul, Nat.mul_comm]; omega

/-- A bit of an address as a quotient. -/
theorem getLsbD_eq_div (a : Word) (j : Nat) : a.getLsbD j = decide (a.toNat / 2 ^ j % 2 = 1) := by
  simp [BitVec.getLsbD, Nat.testBit_eq_decide_div_mod_eq]

/-- Bits 3:2 of an address as a quotient (the register number of R30). -/
theorem extractLsb'_2_2 (a : Word) : (a.extractLsb' 2 2).toNat = a.toNat / 4 % 4 := by
  simp [BitVec.extractLsb', Nat.shiftRight_eq_div_pow]

theorem inWindow_iff (p : Params) (a : Word) :
    inWindow p a = true ↔ p.bankBase.toNat ≤ a.toNat ∧ a.toNat < p.bankBase.toNat + 2 ^ p.windowBits := by
  simp only [inWindow, Bool.and_eq_true, decide_eq_true_eq]; rfl

/-- R31: the data address as a number, under R5. -/
theorem dataAddress_toNat {p : Params} (hv : p.Valid) :
    (dataAddress p).toNat = p.bankBase.toNat + 2 ^ p.rsBit := by
  obtain ⟨-, ⟨hr, hW⟩, -, -, htop⟩ := hv
  have h1 : 2 ^ p.rsBit < 2 ^ p.windowBits := Nat.pow_lt_pow_right (by omega) hr
  have h2 : 2 ^ p.windowBits ≤ 2 ^ 32 := Nat.pow_le_pow_right (by omega) hW
  unfold Params.windowEnd at htop
  simp [dataAddress, Nat.shiftLeft_eq]
  omega

/-! ### The decoder by region -/

theorem opWord_of_cfg {p : Params} {r : Request} {k : BitVec 2} (h : decodeAddress p r.addr = .cfg k) :
    opWord p r = packOp 1#2 r.write r.size.toBits k := by
  simp [opWord, h, Region.regionBits, Region.subBits]

theorem opWord_of_bank {p : Params} {r : Request} {rs : Bool} (h : decodeAddress p r.addr = .bank rs) :
    opWord p r = packOp 2#2 r.write r.size.toBits (if rs then 1#2 else 0#2) := by
  simp [opWord, h, Region.regionBits, Region.subBits]

theorem opWord_of_outside {p : Params} {r : Request} (h : decodeAddress p r.addr = .outside) :
    opWord p r = packOp 0#2 r.write r.size.toBits 0#2 := by
  simp [opWord, h, Region.regionBits, Region.subBits]

/-- Every row of the opcode map has the full mask and builds the instruction of its own operation word. -/
theorem opTable_row : ∀ row ∈ opTable, row.mask = 0x7F#7 ∧ ∀ a v,
    (row.build a v).opcode = row.pattern ∧ (row.build a v).addr = a ∧
      (row.build a v).wdata = if row.pattern.getLsbD 4 then v else 0 := by
  intro row h
  simp only [opTable, configRows, bankRows, List.cons_append, List.nil_append, List.mem_cons, List.not_mem_nil,
    or_false] at h
  rcases h with rfl | rfl | rfl | rfl | rfl | rfl | rfl | rfl | rfl | rfl | rfl | rfl | rfl | rfl <;>
    exact ⟨rfl, fun a v => ⟨rfl, rfl, by simp [Instr.wdata]⟩⟩

/-- What is decoded has the request's operation word, address and, for a write, write value. -/
theorem decodeRequest_ok_opcode {p : Params} {r : Request} {i : Instr} (h : decodeRequest p r = .ok i) :
    opWord p r = i.opcode ∧ i.addr = r.addr ∧ i.wdata = if r.write then r.wdata else 0 := by
  obtain ⟨row, hrow, rfl⟩ := decodeRequest_ok h
  obtain ⟨hm, hb⟩ := opTable_row row (List.mem_of_find?_eq_some hrow)
  obtain ⟨h1, h2, h3⟩ := hb r.addr r.wdata
  have hsel := List.find?_some hrow
  rw [beq_iff_eq, hm] at hsel
  have hp : opWord p r = row.pattern := by
    rw [← hsel]
    exact (BitVec.and_allOnes (x := opWord p r)).symm
  refine ⟨hp.trans h1.symm, h2, ?_⟩
  rw [h3, ← hp, opWord, packOp_write]

/-- The request of what is decoded is the request itself, a read's `wdata` cleared. -/
theorem decodeRequest_ok_request {p : Params} {r : Request} {i : Instr} (h : decodeRequest p r = .ok i) :
    i.request = { r with wdata := if r.write then r.wdata else 0 } := by
  obtain ⟨h1, h2, h3⟩ := decodeRequest_ok_opcode h
  obtain ⟨w, z, a, v⟩ := r
  simp only [Instr.request, ← h1, h2, h3, opWord, packOp_write, packOp_size, Size.ofBits_toBits]

/-- R54: no row for a request outside both regions. -/
theorem decodeRequest_of_outside {p : Params} {r : Request} (h : decodeAddress p r.addr = .outside) :
    decodeRequest p r = .error .outsideRegions := by
  have hno : lookupOp (packOp 0#2 r.write r.size.toBits 0#2) = none := by
    generalize r.size.toBits = z
    generalize r.write = w
    rw [← Option.isNone_iff_eq_none]
    clear h
    revert w z; decide
  simp [decodeRequest, opWord_of_outside h, hno, rejectReason, h]

/-- The decoder in the configuration block. -/
theorem decodeRequest_of_cfg {p : Params} {r : Request} {k : BitVec 2} (h : decodeAddress p r.addr = .cfg k) :
    decodeRequest p r =
      if r.size ≠ .b32 then .error .configSize
      else if k = 0#2 then .ok (if r.write then .cfgwrBcr r.addr r.wdata else .cfgrdBcr r.addr)
      else if k = 1#2 then .ok (if r.write then .cfgwrRtr r.addr r.wdata else .cfgrdRtr r.addr)
      else if k = 2#2 then .ok (if r.write then .cfgwrWtr r.addr r.wdata else .cfgrdWtr r.addr)
      else .error .reservedRegister := by
  have e := opWord_of_cfg h
  obtain ⟨w, z, a, v⟩ := r
  dsimp only at h e ⊢
  have hk : k = 0#2 ∨ k = 1#2 ∨ k = 2#2 ∨ k = 3#2 := by clear e h; revert k; decide
  rcases hk with rfl | rfl | rfl | rfl <;> cases z <;> cases w <;>
    simp [decodeRequest, e, packOp, Size.toBits, lookupOp, opTable, configRows, bankRows, rejectReason, h]

/-- The decoder in the bank window. -/
theorem decodeRequest_of_bank {p : Params} {r : Request} {rs : Bool} (h : decodeAddress p r.addr = .bank rs) :
    decodeRequest p r =
      if r.size = .b8 then
        .ok (if r.write then (if rs then .wrdat8 r.addr r.wdata else .wrcmd8 r.addr r.wdata)
          else (if rs then .rddat8 r.addr else .rdcmd8 r.addr))
      else if r.size = .b16 then
        .ok (if r.write then (if rs then .wrdat16 r.addr r.wdata else .wrcmd16 r.addr r.wdata)
          else (if rs then .rddat16 r.addr else .rdcmd16 r.addr))
      else .error .bankSize := by
  have e := opWord_of_bank h
  obtain ⟨w, z, a, v⟩ := r
  dsimp only at h e ⊢
  cases z <;> cases w <;> cases rs <;>
    simp [decodeRequest, e, packOp, Size.toBits, lookupOp, opTable, configRows, bankRows, rejectReason, h]

end Sys2Proof
end

