-- ==== Sys2Proof/Laws/Ops.lean ====
section
/-! SUPPORT. For each shared operation, once, everything it can do. -/

namespace Sys2Proof.Machine

/-! ### Checks -/

/-- R60 for a 32-bit access. -/
theorem cfgCheck_b32 (addr : Word) :
    cfgCheck .b32 addr = if addr.extractLsb' 0 2 ≠ 0b00#2 then some .align
      else if addr.extractLsb' 2 2 = 0b11#2 then some .reserved else none := by
  simp [cfgCheck]

/-- A bank access passes exactly when it is of a legal size, aligned, and the bank is live with a bus wide enough. -/
theorem bankCheck_ok_iff (bcr : Word) (size : Size) (addr : Word) (n : BusWidth) :
    bankCheck bcr size addr = .ok n ↔
      (size = .b8 ∨ (size = .b16 ∧ addr.getLsbD 0 = false ∧ n = .w16)) ∧ bcrEn bcr = true ∧ bcrLegal bcr = true ∧
        bcrWidth bcr = n := by
  cases size <;> cases hn : bcrWidth bcr <;> cases n <;> cases h0 : addr[0] <;> cases he : bcrEn bcr <;>
    cases hl : bcrLegal bcr <;> simp [bankCheck, *]

/-- An 8-bit access has two causes only. -/
theorem bankCheck_b8 (bcr addr : Word) :
    bankCheck bcr .b8 addr = if bcrEn bcr = false then .error .disabled
      else if bcrLegal bcr = false then .error .config else .ok (bcrWidth bcr) := by
  simp [bankCheck]

/-- A 16-bit access. -/
theorem bankCheck_b16 (bcr addr : Word) :
    bankCheck bcr .b16 addr = if addr.getLsbD 0 = true then .error .align
      else if bcrEn bcr = false then .error .disabled
      else if bcrLegal bcr = false then .error .config
      else if bcrWidth bcr = .w8 then .error .width else .ok (bcrWidth bcr) := by
  simp [bankCheck]

/-! ### Responses -/

@[simp] theorem answer_eq (r : Response) (s : State) :
    answer r s = { s with responses := s.responses ++ [r], cycle := s.cycle + 1 } := rfl

@[simp] theorem errorResponse_eq (c : Fault) (s : State) :
    errorResponse c s = { s with responses := s.responses ++ [.error c], cycle := s.cycle + 1 } := rfl

/-! ### Transfers -/

/-- The one equation of a bus cycle. -/
theorem busCycle_eq (c : TransferLatch) (din : Half) (s : State) :
    busCycle c din s = { s with
      cur := c, trace := s.trace ++ [eventOf c din], dev := s.dev + 1, phase := .idle, cnt := 0,
      cycle := s.cycle + c.t.period } := rfl

/-- Everything a configuration read can do. -/
theorem configRead_cases (k : ConfigReg) (addr : Word) (s : State) :
    (∃ c, cfgCheck .b32 addr = some c ∧ configRead k addr s = errorResponse c s) ∨
    (cfgCheck .b32 addr = none ∧ configRead k addr s = answer (.value (s.readReg k)) s) := by
  unfold configRead
  cases h : cfgCheck .b32 addr with
  | none => exact .inr ⟨rfl, rfl⟩
  | some c => exact .inl ⟨c, rfl, rfl⟩

/-- Everything a configuration write can do. -/
theorem configWrite_cases (k : ConfigReg) (addr v : Word) (s : State) :
    (∃ c, cfgCheck .b32 addr = some c ∧ configWrite k addr v s = errorResponse c s) ∨
    (cfgCheck .b32 addr = none ∧ configWrite k addr v s = answer .written (s.writeReg k v)) := by
  unfold configWrite
  cases h : cfgCheck .b32 addr with
  | none => exact .inr ⟨rfl, rfl⟩
  | some c => exact .inl ⟨c, rfl, rfl⟩

/-- Everything a bank write can do. -/
theorem bankWrite_cases (size : Size) (rs : Bool) (addr v : Word) (s : State) :
    (∃ c, bankCheck s.bcr size addr = .error c ∧ bankWrite size rs addr v s = errorResponse c s) ∨
    (∃ n, bankCheck s.bcr size addr = .ok n ∧
      bankWrite size rs addr v s = (busCycle (latchOf s true rs n size addr v) 0 s).addResponse .written) := by
  unfold bankWrite
  cases h : bankCheck s.bcr size addr with
  | error c => exact .inl ⟨c, rfl, rfl⟩
  | ok n => exact .inr ⟨n, rfl, rfl⟩

/-- Everything a bank read can do. -/
theorem bankRead_cases (size : Size) (rs : Bool) (addr : Word) (s : State) :
    (∃ c, bankCheck s.bcr size addr = .error c ∧ bankRead size rs addr s = errorResponse c s) ∨
    (∃ n, bankCheck s.bcr size addr = .ok n ∧
      bankRead size rs addr s =
        (busCycle (latchOf s false rs n size addr 0) (Config.deviceDrives s.dev) s).addResponse
          (.value (readLane size (pinData n (Config.deviceDrives s.dev))))) := by
  unfold bankRead bankReadOf
  cases h : bankCheck s.bcr size addr with
  | error c => exact .inl ⟨c, rfl, rfl⟩
  | ok n => exact .inr ⟨n, rfl, rfl⟩

/-- What an instruction does, once for all: one of the four shared operations, on the instruction's own address and
value, with the direction, size and register-select bits of its operation word. -/
theorem exec_shape (i : Instr) (s : State) :
    (i.isBank = false ∧ i.request.write = false ∧
      ∃ k, exec i s = .next (configRead k i.addr s)) ∨
    (i.isBank = false ∧ i.request.write = true ∧
      ∃ k, exec i s = .next (configWrite k i.addr i.wdata s)) ∨
    (i.isBank = true ∧ i.request.write = true ∧
      exec i s = .next (bankWrite i.request.size i.rsBit i.addr i.wdata s)) ∨
    (i.isBank = true ∧ i.request.write = false ∧
      exec i s = .next (bankRead i.request.size i.rsBit i.addr s)) := by
  cases i
  case cfgrdBcr a => exact .inl ⟨by simp [Instr.isBank, Instr.opcode], by simp, .bcr, rfl⟩
  case cfgrdRtr a => exact .inl ⟨by simp [Instr.isBank, Instr.opcode], by simp, .rtr, rfl⟩
  case cfgrdWtr a => exact .inl ⟨by simp [Instr.isBank, Instr.opcode], by simp, .wtr, rfl⟩
  case cfgwrBcr a v => exact .inr (.inl ⟨by simp [Instr.isBank, Instr.opcode], by simp, .bcr, rfl⟩)
  case cfgwrRtr a v => exact .inr (.inl ⟨by simp [Instr.isBank, Instr.opcode], by simp, .rtr, rfl⟩)
  case cfgwrWtr a v => exact .inr (.inl ⟨by simp [Instr.isBank, Instr.opcode], by simp, .wtr, rfl⟩)
  case rdcmd8 a => exact .inr (.inr (.inr ⟨by simp [Instr.isBank, Instr.opcode], by simp, by rw [Instr.request_rdcmd8]; simp [exec, Instr.rsBit, Instr.opcode]; rfl⟩))
  case rddat8 a => exact .inr (.inr (.inr ⟨by simp [Instr.isBank, Instr.opcode], by simp, by rw [Instr.request_rddat8]; simp [exec, Instr.rsBit, Instr.opcode]; rfl⟩))
  case rdcmd16 a => exact .inr (.inr (.inr ⟨by simp [Instr.isBank, Instr.opcode], by simp, by rw [Instr.request_rdcmd16]; simp [exec, Instr.rsBit, Instr.opcode]; rfl⟩))
  case rddat16 a => exact .inr (.inr (.inr ⟨by simp [Instr.isBank, Instr.opcode], by simp, by rw [Instr.request_rddat16]; simp [exec, Instr.rsBit, Instr.opcode]; rfl⟩))
  case wrcmd8 a v => exact .inr (.inr (.inl ⟨by simp [Instr.isBank, Instr.opcode], by simp, by rw [Instr.request_wrcmd8]; simp [exec, Instr.rsBit, Instr.opcode]; rfl⟩))
  case wrdat8 a v => exact .inr (.inr (.inl ⟨by simp [Instr.isBank, Instr.opcode], by simp, by rw [Instr.request_wrdat8]; simp [exec, Instr.rsBit, Instr.opcode]; rfl⟩))
  case wrcmd16 a v => exact .inr (.inr (.inl ⟨by simp [Instr.isBank, Instr.opcode], by simp, by rw [Instr.request_wrcmd16]; simp [exec, Instr.rsBit, Instr.opcode]; rfl⟩))
  case wrdat16 a v => exact .inr (.inr (.inl ⟨by simp [Instr.isBank, Instr.opcode], by simp, by rw [Instr.request_wrdat16]; simp [exec, Instr.rsBit, Instr.opcode]; rfl⟩))

end Sys2Proof.Machine
end

