-- ==== Sys2Proof/Laws/Reset.lean ====
section
/-! SUPPORT. What reset and the host's side of the port do, field by field. -/

namespace Sys2Proof.Machine

@[simp] theorem ResetStage.atEdge_asserted : ResetStage.asserted.atEdge = .asserted := rfl
@[simp] theorem ResetStage.atEdge_released : ResetStage.released.atEdge = .over := rfl
@[simp] theorem ResetStage.atEdge_over : ResetStage.over.atEdge = .over := rfl

namespace State

variable (s : State) (k : ResetStage)

@[simp] theorem atReset_params : (s.atReset k).params = s.params := rfl
@[simp] theorem atReset_rst : (s.atReset k).rst = k := rfl
@[simp] theorem atReset_host : (s.atReset k).host = s.host := rfl
@[simp] theorem atReset_dev : (s.atReset k).dev = s.dev := rfl
@[simp] theorem atReset_bcr : (s.atReset k).bcr = 0x00000000#32 := rfl
@[simp] theorem atReset_rtr : (s.atReset k).rtr = 0x000FFF0F#32 := rfl
@[simp] theorem atReset_wtr : (s.atReset k).wtr = 0x000FFF0F#32 := rfl
@[simp] theorem atReset_phase : (s.atReset k).phase = .idle := rfl
@[simp] theorem atReset_cnt : (s.atReset k).cnt = 0 := rfl
@[simp] theorem atReset_cur : (s.atReset k).cur = TransferLatch.reset := rfl
@[simp] theorem atReset_trace : (s.atReset k).trace = [] := rfl
@[simp] theorem atReset_responses : (s.atReset k).responses = [] := rfl
@[simp] theorem atReset_cycle : (s.atReset k).cycle = 0 := rfl
@[simp] theorem atReset_twice (j : ResetStage) : (s.atReset j).atReset k = s.atReset k := rfl

/-- The fall of `rst_n`, in one equation. -/
theorem assertReset_eq : s.assertReset = { State.resetFor s.params with
    rst := .asserted, host := if inFlight s then s.host.tail else s.host, dev := s.dev + 1 } := rfl

@[simp] theorem releaseReset_asserted {s : State} (h : s.rst = .asserted) :
    s.releaseReset = { s with rst := .released } := if_pos h

@[simp] theorem releaseReset_of_high {s : State} (h : s.rst ≠ .asserted) : s.releaseReset = s := if_neg h

/-- Reset asserted and released again: the reset values are there until the first edge. -/
theorem releaseReset_assertReset : s.assertReset.releaseReset = s.assertReset.atReset .released := rfl

@[simp] theorem present_eq (r : Request) : s.present r = { s with host := s.host ++ [r] } := rfl

/-- A request is in flight exactly in the phases with chip-select. -/
theorem inFlight_iff : inFlight s = true ↔ s.phase = .addr ∨ s.phase = .data := by
  simp [inFlight]

end State

end Sys2Proof.Machine
end

