-- ==== Sys2Proof/Laws/Sequencer.lean ====
section
/-! SUPPORT. The clock level, one lemma per phase, and runs of clock cycles. -/

namespace Sys2Proof.Machine

/-- R140: a clock cycle before reset is over. -/
theorem clockEdge_in_reset {s : State} (h : s.rst ≠ .over) : clockEdge s = .next (s.atReset s.rst.atEdge) := by
  simp [clockEdge, clockEdgeOf, h]

theorem clockEdge_running {s : State} (h : s.rst = .over) :
    clockEdge s = runningEdge (Config.deviceDrives s.dev) s := by
  simp [clockEdge, clockEdgeOf, h]

theorem clockEdge_idle_nil {s : State} (h : s.rst = .over) (hp : s.phase = .idle) (hh : s.host = []) :
    clockEdge s = .next (idleCycle s) := by
  simp [clockEdge_running h, runningEdge, hp, hh]

theorem clockEdge_idle_cons {s : State} {r : Request} {rest : List Request} (h : s.rst = .over) (hp : s.phase = .idle)
    (hh : s.host = r :: rest) : clockEdge s = .next (idleEdge s r rest) := by
  simp [clockEdge_running h, runningEdge, hp, hh]

theorem clockEdge_addr {s : State} {r : Request} {rest : List Request} (h : s.rst = .over) (hp : s.phase = .addr)
    (hh : s.host = r :: rest) (hr : holds s.cur r = true) : clockEdge s = .next (addrEdge s) := by
  simp [clockEdge_running h, runningEdge, hp, hh, hr]

theorem clockEdge_data {s : State} {r : Request} {rest : List Request} (h : s.rst = .over) (hp : s.phase = .data)
    (hh : s.host = r :: rest) (hr : holds s.cur r = true) :
    clockEdge s = .next (dataEdge (Config.deviceDrives s.dev) s r rest) := by
  simp [clockEdge_running h, runningEdge, hp, hh, hr]

theorem clockEdge_turn {s : State} (h : s.rst = .over) (hp : s.phase = .turn) :
    clockEdge s = .next (turnEdge s) := by
  simp [clockEdge_running h, runningEdge, hp]

@[simp] theorem clockRun_zero (s : State) : clockRun 0 s = .next s := rfl

theorem clockRun_succ_of {s t : State} {k : Nat} (h : clockEdge s = .next t) : clockRun (k + 1) s = clockRun k t := by
  simp [clockRun, h]

/-- A run of clock cycles, cut in two. -/
theorem clockRun_add {s t : State} {a : Nat} (b : Nat) (h : clockRun a s = .next t) :
    clockRun (a + b) s = clockRun b t := by
  induction a generalizing s with
  | zero => simp only [clockRun_zero, Host.Outcome.next.injEq] at h; simp [h]
  | succ a ih =>
    rw [show a + 1 + b = a + b + 1 by omega]
    cases hs : clockEdge s with
    | next s' =>
      rw [clockRun_succ_of hs] at h ⊢
      exact ih h
    | fault f => simp [clockRun, hs] at h
    | refused x => simp [clockRun, hs] at h

/-- R91, R103, R104: a request that starts no transfer is answered in its own cycle. -/
theorem idleEdge_of_error {s : State} {r : Request} {rest : List Request} {c : Fault}
    (h : verdict s.params s.bcr r = .error c) : idleEdge s r rest = errorResponse c (s.setHost rest) := by
  simp [idleEdge, h]

theorem idleEdge_of_accept {s : State} {r : Request} {rest : List Request} {rs : Bool} {n : BusWidth}
    (h : verdict s.params s.bcr r = .accept rs n) :
    idleEdge s r rest = (acceptEdge (acceptLatch s r rs n) s).advance 1 := by
  simp [idleEdge, h]

/-- The latch of an accepted request is one its host holds. -/
@[simp] theorem holds_acceptLatch (s : State) (r : Request) (rs : Bool) (n : BusWidth) :
    holds (acceptLatch s r rs n) r = true := by
  simp [holds, acceptLatch, latchOf]

/-- A phase counts down: if each edge with a positive count only lowers it, `k` edges lower it by `k`. -/
theorem clockRun_countdown {s : State}
    (hstep : ∀ c j, c ≠ 0 → clockEdge { s with cnt := c, cycle := j } = .next { s with cnt := c - 1, cycle := j + 1 })
    (k : Nat) (hk : k ≤ s.cnt.toNat) :
    clockRun k s = .next { s with cnt := s.cnt - BitVec.ofNat 8 k, cycle := s.cycle + k } := by
  induction k with
  | zero => simp
  | succ k ih =>
    have hlt := s.cnt.isLt
    have hk8 : (BitVec.ofNat 8 k).toNat = k := by simp; omega
    have hc : s.cnt - BitVec.ofNat 8 k ≠ 0 := by
      intro e
      have e' := congrArg BitVec.toNat e
      rw [BitVec.toNat_sub, hk8] at e'
      simp at e'; omega
    have hnext := clockRun_add 1 (ih (by omega))
    rw [hnext, clockRun_succ_of (hstep _ _ hc), clockRun_zero]
    have : s.cnt - BitVec.ofNat 8 k - 1 = s.cnt - BitVec.ofNat 8 (k + 1) := by
      apply BitVec.eq_of_toNat_eq
      simp [BitVec.toNat_sub]
      omega
    rw [this]; rfl

/-- An edge of the `ADDR` phase before its last cycle. -/
theorem addrEdge_of_ne {s : State} (hp : s.phase = .addr) (hc : s.cnt ≠ 0) :
    addrEdge s = { s with cnt := s.cnt - 1, cycle := s.cycle + 1 } := by
  simp only [addrEdge, if_neg hc, State.setPhase, State.advance, ← hp]

/-- An edge of the `DATA` phase before its last cycle. -/
theorem dataEdge_of_ne {s : State} {din : Half} {r : Request} {rest : List Request} (hp : s.phase = .data)
    (hc : s.cnt ≠ 0) : dataEdge din s r rest = { s with cnt := s.cnt - 1, cycle := s.cycle + 1 } := by
  simp only [dataEdge, if_neg hc, State.setPhase, State.advance, ← hp]

/-- An edge of the `TURN` phase before its last cycle. -/
theorem turnEdge_of_ne {s : State} (hp : s.phase = .turn) (hc : s.cnt ≠ 0) :
    turnEdge s = { s with cnt := s.cnt - 1, cycle := s.cycle + 1 } := by
  simp only [turnEdge, if_neg hc, State.setPhase, State.advance, ← hp]

/-- `k` cycles of the `ADDR` phase with at least `k` cycles still to go. -/
theorem clockRun_addr {s : State} {r : Request} {rest : List Request} (h : s.rst = .over) (hp : s.phase = .addr)
    (hh : s.host = r :: rest) (hr : holds s.cur r = true) (k : Nat) (hk : k ≤ s.cnt.toNat) :
    clockRun k s = .next { s with cnt := s.cnt - BitVec.ofNat 8 k, cycle := s.cycle + k } :=
  clockRun_countdown (fun c j hc => by
    rw [clockEdge_addr (s := { s with cnt := c, cycle := j }) h hp hh hr]
    rw [addrEdge_of_ne (s := { s with cnt := c, cycle := j }) hp hc]) k hk

/-- `k` cycles of the `DATA` phase with at least `k` cycles still to go. -/
theorem clockRun_data {s : State} {r : Request} {rest : List Request} (h : s.rst = .over) (hp : s.phase = .data)
    (hh : s.host = r :: rest) (hr : holds s.cur r = true) (k : Nat) (hk : k ≤ s.cnt.toNat) :
    clockRun k s = .next { s with cnt := s.cnt - BitVec.ofNat 8 k, cycle := s.cycle + k } :=
  clockRun_countdown (fun c j hc => by
    rw [clockEdge_data (s := { s with cnt := c, cycle := j }) h hp hh hr]
    rw [dataEdge_of_ne (s := { s with cnt := c, cycle := j }) hp hc]) k hk

/-- `k` cycles of the `TURN` phase with at least `k` cycles still to go. -/
theorem clockRun_turn {s : State} (h : s.rst = .over) (hp : s.phase = .turn) (k : Nat) (hk : k ≤ s.cnt.toNat) :
    clockRun k s = .next { s with cnt := s.cnt - BitVec.ofNat 8 k, cycle := s.cycle + k } :=
  clockRun_countdown (fun c j hc => by
    rw [clockEdge_turn (s := { s with cnt := c, cycle := j }) h hp]
    rw [turnEdge_of_ne (s := { s with cnt := c, cycle := j }) hp hc]) k hk

end Sys2Proof.Machine
end

