-- ==== Sys2Proof/Laws/Safety.lean ====
section
/-! SUPPORT. The words claims are stated in, connected to the definitions of the machine. -/

namespace Sys2Proof.Machine

/-- R16: the model's legality test is the one by bit positions. -/
theorem bcrLegal_iff (b : Word) : bcrLegal b = true ↔ LegalBcr b := by
  unfold bcrLegal LegalBcr bcrMux bcrMtyp bcrMwid
  have h5 : b.getLsbD 5 = (b.extractLsb' 4 2).getLsbD 1 := by simp
  rw [h5]
  generalize b.extractLsb' 4 2 = m
  generalize b.extractLsb' 2 2 = t
  generalize b.getLsbD 1 = u
  revert m t u; decide

/-- With a legal `MWID`, its low bit is the code of the bus width. -/
theorem mwid_low_iff (b : Word) (n : BusWidth) (h5 : b.getLsbD 5 = false) :
    b.getLsbD 4 = (n == .w16) ↔ bcrWidth b = n := by
  have e4 : b.getLsbD 4 = (b.extractLsb' 4 2).getLsbD 0 := by simp
  have e5 : b.getLsbD 5 = (b.extractLsb' 4 2).getLsbD 1 := by simp
  rw [e4]; rw [e5] at h5
  unfold bcrWidth bcrMwid
  clear e4 e5
  generalize b.extractLsb' 4 2 = m at *
  cases n <;> revert m <;> decide

/-- A live bank of width `n`, in the model's functions. -/
theorem live_iff (s : State) (n : BusWidth) :
    Live s n ↔ bcrEn s.bcr = true ∧ bcrLegal s.bcr = true ∧ bcrWidth s.bcr = n := by
  rw [bcrLegal_iff]
  constructor
  · rintro ⟨h0, hl, h4⟩
    exact ⟨h0, hl, (mwid_low_iff _ _ hl.2.2).mp h4⟩
  · rintro ⟨h0, hl, h4⟩
    exact ⟨h0, hl, (mwid_low_iff _ _ hl.2.2).mpr h4⟩

/-- On a live bank of width `n` the checks pass for an 8-bit access at any address. -/
theorem bankCheck_b8_of_live {s : State} {n : BusWidth} (h : Live s n) (addr : Word) :
    bankCheck s.bcr .b8 addr = .ok n :=
  (bankCheck_ok_iff _ _ _ _).mpr ⟨.inl rfl, (live_iff s n).mp h⟩

/-- On a live 16-bit bank the checks pass for a 16-bit access at an even address. -/
theorem bankCheck_b16_of_live {s : State} (h : Live s .w16) {addr : Word} (ha : addr.getLsbD 0 = false) :
    bankCheck s.bcr .b16 addr = .ok .w16 :=
  (bankCheck_ok_iff _ _ _ _).mpr ⟨.inr ⟨rfl, ha, rfl⟩, (live_iff s _).mp h⟩

/-- The byte lane of an 8-bit write, as pins and as `dout`. -/
theorem laneFill_b8 (f : ByteFill) (n : BusWidth) (v : Word) :
    laneFill f .b8 n v = (byteOnBus f n (v.extractLsb' 0 8)).all ∧
      pinData n (laneFill f .b8 n v) = byteOnBus f n (v.extractLsb' 0 8) := by
  have e : v.extractLsb' 0 8 = v.setWidth 8 := by ext i hi; simp
  rw [e]
  generalize hb : v.setWidth 8 = b
  cases n <;> cases f <;> simp [laneFill, byteOnBus, PinData.all, pinData, hb] <;> clear hb <;> revert b <;> decide

/-- The 16-bit lane. -/
theorem laneFill_b16 (f : ByteFill) (v : Word) : laneFill f .b16 .w16 v = v.extractLsb' 0 16 := by
  have e : v.extractLsb' 0 16 = v.setWidth 16 := by ext i hi; simp
  rw [e]; cases f <;> rfl

theorem tripleAt_eq (w : Word) : tripleAt w = timingOf w := rfl

end Sys2Proof.Machine
end

