-- ==== Sys2Proof/Laws/Step.lean ====
section
/-! SUPPORT. What one step does, by the region of the presented request. -/

namespace Sys2Proof.Machine

theorem step_no_request {s : State} (hr : s.Ready) (hh : s.host = []) : step s = .next (idleCycle s) := by
  simp [step, hr.1, hr.2, hh]

theorem step_serve {s : State} {r : Request} {rest : List Request} (hr : s.Ready) (hh : s.host = r :: rest) :
    step s = serve r rest s := by
  simp [step, hr.1, hr.2, hh]

theorem step_in_transfer {s : State} (hr : s.rst = .over) (hp : s.phase ≠ .idle) : step s = clockEdge s := by
  cases h : s.phase
  · exact absurd h hp
  all_goals simp [step, hr, h]

theorem step_in_reset {s : State} (hr : s.rst ≠ .over) : step s = .next (s.atReset s.rst.atEdge) := by
  simp [step, hr, clockEdge, clockEdgeOf]

/-- A presented bank request of any size. -/
theorem step_of_bank {s : State} {r : Request} {rest : List Request} {rs : Bool} (hr : s.Ready)
    (hh : s.host = r :: rest) (ha : decodeAddress s.params r.addr = .bank rs) :
    step s = .next (if r.write then bankWrite r.size rs r.addr r.wdata (s.setHost rest)
      else bankRead r.size rs r.addr (s.setHost rest)) := by
  rw [step_serve hr hh, serve, decodeRequest_of_bank ha]
  obtain ⟨w, z, a, v⟩ := r
  cases z <;> cases w <;> cases rs <;> rfl

/-- A presented configuration request of any size. -/
theorem step_of_cfg {s : State} {r : Request} {rest : List Request} {k : BitVec 2} (hr : s.Ready)
    (hh : s.host = r :: rest) (ha : decodeAddress s.params r.addr = .cfg k) :
    step s = .next (idleEdge s r rest) := by
  have hk2 : r.addr.extractLsb' 2 2 = k := by
    unfold decodeAddress at ha
    split at ha
    · simpa using ha
    · split at ha <;> cases ha
  rw [step_serve hr hh, serve, decodeRequest_of_cfg ha]
  unfold idleEdge verdict
  rw [ha]
  obtain ⟨w, z, a, v⟩ := r
  dsimp only at hk2 ⊢
  subst hk2
  have hk : a.extractLsb' 2 2 = 0#2 ∨ a.extractLsb' 2 2 = 1#2 ∨ a.extractLsb' 2 2 = 2#2 ∨ a.extractLsb' 2 2 = 3#2 := by
    generalize a.extractLsb' 2 2 = k; revert k; decide
  by_cases h0 : a.extractLsb' 0 2 = 0#2 <;> rcases hk with hk | hk | hk | hk <;> rw [hk] <;> cases z <;> cases w <;>
    simp [serveRejected, rejectCause, cfgCheck, exec, execCfgrdBcr, execCfgrdRtr, execCfgrdWtr, execCfgwrBcr,
      execCfgwrRtr, execCfgwrWtr, configRead, configWrite, regOfNumber, h0, hk]

/-- A presented request of neither region. -/
theorem step_of_outside {s : State} {r : Request} {rest : List Request} (hr : s.Ready)
    (hh : s.host = r :: rest) (ha : decodeAddress s.params r.addr = .outside) :
    step s = .refused .outsideRegions := by
  rw [step_serve hr hh, serve, decodeRequest_of_outside ha]
  rfl

end Sys2Proof.Machine
end

