-- ==== Sys2Proof/Laws/Transfer.lean ====
section
/-! SUPPORT. A whole accepted transfer at the clock level, cycle by cycle (`43_sequencer.md` R91 to R97). -/

namespace Sys2Proof.Machine

/-- R91: the presented bank request whose checks pass is accepted. -/
theorem verdict_of_bank {p : Params} {bcr : Word} {r : Request} {rs : Bool} {n : BusWidth}
    (ha : decodeAddress p r.addr = .bank rs) (hc : bankCheck bcr r.size r.addr = .ok n) : verdict p bcr r = .accept rs n := by
  simp [verdict, ha, hc]

section
variable {s : State} {r : Request} {rest : List Request} {rs : Bool} {n : BusWidth}

/-- A count that goes down by one. -/
theorem ofNat8_pred {a : Nat} (_ : a + 1 < 256) : (BitVec.ofNat 8 (a + 1) - 1 : BitVec 8) = BitVec.ofNat 8 a := by
  apply BitVec.eq_of_toNat_eq; simp [BitVec.toNat_sub]; omega

theorem ofNat8_ne {a : Nat} (h : a + 1 < 256) : BitVec.ofNat 8 (a + 1) ≠ 0 := by
  intro e; have := congrArg BitVec.toNat e; simp at this; omega

/-- The state `k` cycles after the start of the acceptance cycle, in the `ADDR` phase. -/
theorem transfer_addr (hr : s.Ready) (hh : s.host = r :: rest) (hv : verdict s.params s.bcr r = .accept rs n) (k : Nat)
    (h1 : 1 ≤ k) (h2 : k ≤ (s.timingFor r.write).addset.toNat) :
    clockRun k s = .next { s with
      cur := acceptLatch s r rs n
      phase := .addr
      cnt := BitVec.ofNat 8 ((s.timingFor r.write).addset.toNat - k)
      cycle := s.cycle + k } := by
  have hA := (s.timingFor r.write).addset.isLt
  have hne : (s.timingFor r.write).addset ≠ 0 := by intro e; rw [e] at h2; simp at h2; omega
  induction k with
  | zero => omega
  | succ k ih =>
    by_cases hk : k = 0
    · subst hk
      rw [clockRun_succ_of (clockEdge_idle_cons hr.1 hr.2 hh), idleEdge_of_accept hv, clockRun_zero]
      have ht : (acceptLatch s r rs n).t = s.timingFor r.write := rfl
      simp only [acceptEdge, ht, if_neg hne]
      have : (s.timingFor r.write).addset.setWidth 8 - 1 = BitVec.ofNat 8 ((s.timingFor r.write).addset.toNat - (0+1)) := by
        apply BitVec.eq_of_toNat_eq; simp [BitVec.toNat_sub]; omega
      rw [this]; rfl
    · rw [clockRun_add 1 (ih (by omega) (by omega))]
      obtain ⟨a, ha⟩ : ∃ a, (s.timingFor r.write).addset.toNat - k = a + 1 := ⟨(s.timingFor r.write).addset.toNat - k - 1, by omega⟩
      refine Eq.trans (clockRun_succ_of (clockEdge_addr (r := r) (rest := rest) hr.1 rfl hh (holds_acceptLatch s r rs n))) ?_
      rw [clockRun_zero, addrEdge_of_ne rfl (by rw [ha]; exact ofNat8_ne (by omega))]
      dsimp only
      rw [ha, ofNat8_pred (by omega), show (s.timingFor r.write).addset.toNat - (k + 1) = a by omega]
      rfl

/-- The state `k` cycles after the start of the acceptance cycle, in the `DATA` phase. -/
theorem transfer_data (hr : s.Ready) (hh : s.host = r :: rest) (hv : verdict s.params s.bcr r = .accept rs n) (k : Nat)
    (h1 : (s.timingFor r.write).addset.toNat + 1 ≤ k) (h2 : k ≤ (s.timingFor r.write).addset.toNat + (s.timingFor r.write).datast.toNat + 1) :
    clockRun k s = .next { s with
      cur := acceptLatch s r rs n
      phase := .data
      cnt := BitVec.ofNat 8 ((s.timingFor r.write).addset.toNat + (s.timingFor r.write).datast.toNat + 1 - k)
      cycle := s.cycle + k } := by
  have hA := (s.timingFor r.write).datast.isLt
  have ht : (acceptLatch s r rs n).t = s.timingFor r.write := rfl
  induction k with
  | zero => omega
  | succ k ih =>
    by_cases hk : k = (s.timingFor r.write).addset.toNat
    · rw [show (s.timingFor r.write).addset.toNat + (s.timingFor r.write).datast.toNat + 1 - (k + 1) = (s.timingFor r.write).datast.toNat by omega, BitVec.ofNat_toNat, BitVec.setWidth_eq]
      by_cases h0 : k = 0
      · have hz : (s.timingFor r.write).addset = 0 := by apply BitVec.eq_of_toNat_eq; simp; omega
        subst h0
        rw [clockRun_succ_of (clockEdge_idle_cons hr.1 hr.2 hh), idleEdge_of_accept hv, clockRun_zero]
        simp only [acceptEdge, ht, if_pos hz, enterData]
        rfl
      · rw [clockRun_add 1 (transfer_addr hr hh hv k (by omega) (by omega))]
        refine Eq.trans (clockRun_succ_of (clockEdge_addr (r := r) (rest := rest) hr.1 rfl hh (holds_acceptLatch s r rs n))) ?_
        rw [clockRun_zero]
        rw [show (s.timingFor r.write).addset.toNat - k = 0 by omega]
        rfl
    · rw [clockRun_add 1 (ih (by omega) (by omega))]
      obtain ⟨a, ha⟩ : ∃ a, (s.timingFor r.write).addset.toNat + (s.timingFor r.write).datast.toNat + 1 - k = a + 1 := ⟨(s.timingFor r.write).addset.toNat + (s.timingFor r.write).datast.toNat + 1 - k - 1, by omega⟩
      refine Eq.trans (clockRun_succ_of (clockEdge_data (r := r) (rest := rest) hr.1 rfl hh (holds_acceptLatch s r rs n))) ?_
      rw [clockRun_zero, dataEdge_of_ne rfl (by rw [ha]; exact ofNat8_ne (by omega))]
      dsimp only
      rw [ha, ofNat8_pred (by omega), show (s.timingFor r.write).addset.toNat + (s.timingFor r.write).datast.toNat + 1 - (k + 1) = a by omega]
      rfl

/-- The state `k` cycles after the start of the acceptance cycle, from the edge that ends `DATA` to the edge that ends
`TURN`. -/
theorem transfer_turn (hr : s.Ready) (hh : s.host = r :: rest) (hv : verdict s.params s.bcr r = .accept rs n) (k : Nat)
    (h1 : (s.timingFor r.write).latency ≤ k) (h2 : k ≤ (s.timingFor r.write).period) :
    clockRun k s = .next { s with
      host := rest
      cur := acceptLatch s r rs n
      phase := if k < (s.timingFor r.write).period then .turn else .idle
      cnt := BitVec.ofNat 8 ((s.timingFor r.write).period - 1 - k)
      dev := s.dev + 1
      trace := s.trace ++ [eventOf (acceptLatch s r rs n) (Config.deviceDrives s.dev)]
      responses := s.responses ++ [if r.write then .written else .value (readLane r.size (pinData n (Config.deviceDrives s.dev)))]
      cycle := s.cycle + k } := by
  have hB := (s.timingFor r.write).busturn.isLt
  have ht : (acceptLatch s r rs n).t = s.timingFor r.write := rfl
  have hp : (s.timingFor r.write).period = (s.timingFor r.write).latency + (s.timingFor r.write).busturn.toNat := rfl
  have hl : (s.timingFor r.write).latency = (s.timingFor r.write).addset.toNat + (s.timingFor r.write).datast.toNat + 2 := rfl
  rw [hl] at h1
  induction k with
  | zero => omega
  | succ k ih =>
    by_cases hk : k = (s.timingFor r.write).addset.toNat + (s.timingFor r.write).datast.toNat + 1
    · rw [clockRun_add 1 (transfer_data hr hh hv k (by omega) (by omega))]
      refine Eq.trans (clockRun_succ_of (clockEdge_data (r := r) (rest := rest) hr.1 rfl hh (holds_acceptLatch s r rs n))) ?_
      rw [clockRun_zero]
      rw [show (s.timingFor r.write).addset.toNat + (s.timingFor r.write).datast.toNat + 1 - k = 0 by omega]
      have hw : (acceptLatch s r rs n).write = r.write := rfl
      have hn : (acceptLatch s r rs n).n = n := rfl
      by_cases h0 : (s.timingFor r.write).busturn = 0
      · have : (s.timingFor r.write).busturn.toNat = 0 := by rw [h0]; rfl
        rw [if_neg (by omega), show (s.timingFor r.write).period - 1 - (k+1) = 0 by omega]
        simp only [dataEdge, enterTurn, hw, hn, if_pos, State.setHost, State.addResponse, State.stepDevice, State.addEvent, ht, h0]
        rfl
      · have : (s.timingFor r.write).busturn.toNat ≠ 0 := fun e => h0 (by apply BitVec.eq_of_toNat_eq; simpa using e)
        have e : (s.timingFor r.write).busturn.setWidth 8 - 1 = BitVec.ofNat 8 ((s.timingFor r.write).period - 1 - (k+1)) := by
          apply BitVec.eq_of_toNat_eq; simp [BitVec.toNat_sub]; omega
        rw [if_pos (by omega), ← e]
        simp only [dataEdge, enterTurn, hw, hn, State.setHost, State.addResponse, State.stepDevice, State.addEvent, ht,
          if_neg h0]
        rfl
    · rw [clockRun_add 1 (ih (by omega) (by omega)), if_pos (by omega)]
      refine Eq.trans (clockRun_succ_of (clockEdge_turn hr.1 rfl)) ?_
      rw [clockRun_zero]
      by_cases hlast : k + 1 < (s.timingFor r.write).period
      · obtain ⟨a, ha⟩ : ∃ a, (s.timingFor r.write).period - 1 - k = a + 1 := ⟨(s.timingFor r.write).period - 1 - k - 1, by omega⟩
        rw [turnEdge_of_ne rfl (by rw [ha]; exact ofNat8_ne (by omega))]
        dsimp only
        rw [ha, ofNat8_pred (by omega), show (s.timingFor r.write).period - 1 - (k + 1) = a by omega, if_pos hlast]
        rfl
      · rw [if_neg hlast, show (s.timingFor r.write).period - 1 - k = 0 by omega, show (s.timingFor r.write).period - 1 - (k+1) = 0 by omega]
        rfl
end
end Sys2Proof.Machine
end

