-- ==== Sys2Proof/Tests/Slice0.lean ====
section
/-! SUPPORT. The model's own tests. Expected values are those of `95_test_vectors.md` (the section stands in each
comment) or worked out by hand from the rule named. Then a witness for every statement of Certificates/ that has
hypotheses: concrete data that meet all of them together. -/

namespace Sys2Proof.Tests

open Sys2Proof.Machine

/-! ### States -/

/-- Set `T0`, `BCR = 0x11`, `WTR = 0x201`, `RTR = 0x20F03` (L2.3, L2.5). -/
def live16 : State := { State.reset with bcr := 0x11, rtr := 0x20F03, wtr := 0x201 }

/-- Set `T1`, `BCR = 0x01`, the same timing. -/
def live8 : State := { State.resetFor Config.reference8 with bcr := 0x01, rtr := 0x20F03, wtr := 0x201 }

/-- Set `T0` with `BYTE_FILL = DUP`. -/
def live16dup : State := { live16 with params := { Config.reference with byteFill := .dup } }

/-- `T0` after reset with another `BCR`. -/
def withBcr (b : Word) : State := { State.reset with bcr := b }

def trace? : Host.Outcome State Fault Refusal → Option (List BusEvent)
  | .next s => some s.trace
  | .fault _ => none
  | .refused _ => none

def responses? : Host.Outcome State Fault Refusal → Option (List Response)
  | .next s => some s.responses
  | .fault _ => none
  | .refused _ => none

/-- `phase`, `cnt` and pins after an edge. -/
def shape? : Host.Outcome State Fault Refusal → Option (Phase × BitVec 8 × Pins)
  | .next s => some (s.phase, s.cnt, pins s)
  | .fault _ => none
  | .refused _ => none

/-- Set `T0` has read timing `(3,15,2)` and write timing `(1,2,0)` in `live16`. -/
def wset : TimingSet := ⟨1, 2, 0⟩
def rset : TimingSet := ⟨3, 15, 2⟩

/-! ### Well-formedness: each check refuses an ill-formed term -/

/-- L2.1: an address of another register's word, or above the block, is no `CFGRD.BCR`. -/
theorem test_wf_config : (Instr.cfgrdBcr 0xA0000000).wellFormed Config.reference = true ∧
    (Instr.cfgrdBcr 0xA0000004).wellFormed Config.reference = false ∧
    (Instr.cfgrdRtr 0xA0000008).wellFormed Config.reference = false ∧
    (Instr.cfgrdWtr 0xA000000C).wellFormed Config.reference = false ∧
    (Instr.cfgwrBcr 0x9FFFFFFF 0).wellFormed Config.reference = false ∧
    (Instr.cfgwrRtr 0xA0000000 0).wellFormed Config.reference = false ∧
    (Instr.cfgwrWtr 0xA0000010 0).wellFormed Config.reference = false := by decide

/-- L2.1: outside the window, or with the other register-select bit, is no bank operation of that name. -/
theorem test_wf_bank : (Instr.wrdat16 0x63FFFFFE 0).wellFormed Config.reference = true ∧
    (Instr.rdcmd8 0x64000000).wellFormed Config.reference = false ∧
    (Instr.rdcmd16 0x5FFFFFFF).wellFormed Config.reference = false ∧
    (Instr.rddat8 0x60000000).wellFormed Config.reference = false ∧
    (Instr.rddat16 0x60000002).wellFormed Config.reference = false ∧
    (Instr.wrcmd8 0x60020000 0).wellFormed Config.reference = false ∧
    (Instr.wrcmd16 0x60020000 0).wellFormed Config.reference = false ∧
    (Instr.wrdat8 0x60020000 0).wellFormed Config.reference8 = false ∧
    (Instr.wrdat16 0x64020000 0).wellFormed Config.reference = false := by decide

/-- R5: an overlapping configuration block and an unaligned window are refused. -/
theorem test_params_valid : Config.reference.Valid ∧ Config.reference8.Valid ∧
    ¬{ Config.reference with cfgBase := 0x60000010 }.Valid ∧ ¬{ Config.reference with bankBase := 0x60000001 }.Valid ∧
    ¬{ Config.reference with rsBit := 26 }.Valid := by decide

/-! ### Decoder: every constructor, its word written out field by field (R50: write, size, address, wdata) -/

theorem test_decode_cfgrd :
    decodeBits Config.reference (0b0#1 ++ 0b10#2 ++ 0xA0000000#32 ++ 0x12345678#32) = .ok (.cfgrdBcr 0xA0000000) ∧
    decodeBits Config.reference (0b0#1 ++ 0b10#2 ++ 0xA0000004#32 ++ 0x12345678#32) = .ok (.cfgrdRtr 0xA0000004) ∧
    decodeBits Config.reference (0b0#1 ++ 0b10#2 ++ 0xA0000008#32 ++ 0x12345678#32) = .ok (.cfgrdWtr 0xA0000008) := by
  decide

theorem test_decode_cfgwr :
    decodeBits Config.reference (0b1#1 ++ 0b10#2 ++ 0xA0000000#32 ++ 0xFFFFFF11#32) =
      .ok (.cfgwrBcr 0xA0000000 0xFFFFFF11) ∧
    decodeBits Config.reference (0b1#1 ++ 0b10#2 ++ 0xA0000004#32 ++ 0x00000000#32) = .ok (.cfgwrRtr 0xA0000004 0) ∧
    decodeBits Config.reference (0b1#1 ++ 0b10#2 ++ 0xA0000008#32 ++ 0xFFF000F0#32) =
      .ok (.cfgwrWtr 0xA0000008 0xFFF000F0) := by decide

theorem test_decode_read :
    decodeBits Config.reference (0b0#1 ++ 0b00#2 ++ 0x60000000#32 ++ 0#32) = .ok (.rdcmd8 0x60000000) ∧
    decodeBits Config.reference (0b0#1 ++ 0b00#2 ++ 0x60020001#32 ++ 0#32) = .ok (.rddat8 0x60020001) ∧
    decodeBits Config.reference (0b0#1 ++ 0b01#2 ++ 0x60000002#32 ++ 0#32) = .ok (.rdcmd16 0x60000002) ∧
    decodeBits Config.reference (0b0#1 ++ 0b01#2 ++ 0x63FFFFFE#32 ++ 0#32) = .ok (.rddat16 0x63FFFFFE) := by decide

theorem test_decode_write :
    decodeBits Config.reference (0b1#1 ++ 0b00#2 ++ 0x60000000#32 ++ 0x2C#32) = .ok (.wrcmd8 0x60000000 0x2C) ∧
    decodeBits Config.reference (0b1#1 ++ 0b00#2 ++ 0x60020001#32 ++ 0x7E#32) = .ok (.wrdat8 0x60020001 0x7E) ∧
    decodeBits Config.reference (0b1#1 ++ 0b01#2 ++ 0x60000000#32 ++ 0x2C#32) = .ok (.wrcmd16 0x60000000 0x2C) ∧
    decodeBits Config.reference (0b1#1 ++ 0b01#2 ++ 0x60020000#32 ++ 0xABCD1234#32) =
      .ok (.wrdat16 0x60020000 0xABCD1234) := by decide

/-- L2.1: the words with no row, and their names; `RS_BIT` matters (`T1`). -/
theorem test_decode_rejects :
    decodeBits Config.reference (0b1#1 ++ 0b10#2 ++ 0x60020000#32 ++ 0#32) = .error .bankSize ∧
    decodeBits Config.reference (0b0#1 ++ 0b10#2 ++ 0xA000000C#32 ++ 0#32) = .error .reservedRegister ∧
    decodeBits Config.reference (0b1#1 ++ 0b01#2 ++ 0xA0000000#32 ++ 0#32) = .error .configSize ∧
    decodeBits Config.reference (0b0#1 ++ 0b11#2 ++ 0xA0000000#32 ++ 0#32) = .error .configSize ∧
    decodeBits Config.reference (0b0#1 ++ 0b11#2 ++ 0x60000000#32 ++ 0#32) = .error .bankSize ∧
    decodeBits Config.reference (0b0#1 ++ 0b00#2 ++ 0xA0000010#32 ++ 0#32) = .error .outsideRegions ∧
    decodeAddress Config.reference8 0x60020000 = .bank false ∧ decodeAddress Config.reference8 0x60010000 = .bank true := by
  decide

/-- The host's table words: each of the 14, read with the reference parameters (log 9). -/
theorem test_table_words :
    [0x28, 0x29, 0x2A, 0x38, 0x39, 0x3A].map (decodeTableWord 8) =
      [some (.cfgrdBcr 0xA0000000), some (.cfgrdRtr 0xA0000004), some (.cfgrdWtr 0xA0000008),
        some (.cfgwrBcr 0xA0000000 0), some (.cfgwrRtr 0xA0000004 0), some (.cfgwrWtr 0xA0000008 0)] ∧
    [0x40, 0x41, 0x44, 0x45, 0x50, 0x51, 0x54, 0x55].map (decodeTableWord 8) =
      [some (.rdcmd8 0x60000000), some (.rddat8 0x60020000), some (.rdcmd16 0x60000000), some (.rddat16 0x60020000),
        some (.wrcmd8 0x60000000 0), some (.wrdat8 0x60020000 0), some (.wrcmd16 0x60000000 0),
        some (.wrdat16 0x60020000 0)] ∧
    [0x2B, 0x34, 0x59, 0x42, 0x60, 0x00].map (decodeTableWord 8) = [none, none, none, none, none, none] := by decide

/-- The step after reset runs the placed word: L2.2 b, L2.3 o. -/
theorem test_fetch_word :
    responses? (step (State.reset.withFetchWord 8 0x29)) = some [.value 0x000FFF0F] ∧
    responses? (step (State.reset.withFetchWord 8 0x38)) = some [.written] ∧
    responses? (step (State.reset.withFetchWord 8 0x50)) = some [.error .disabled] := by decide

/-- The table words run as accepted transfers on a live bank. -/
theorem test_fetch_word_live :
    trace? (step (live16.withFetchWord 8 0x55)) = some [⟨.write, true, 0x60020000, .d16 0, wset⟩] := by decide

/-! ### Configuration operations (L2.2) -/

theorem test_cfgrd_bcr : exec (.cfgrdBcr 0xA0000000) State.reset =
    .next { State.reset with responses := [.value 0], cycle := 1 } := by rfl

theorem test_cfgrd_rtr : exec (.cfgrdRtr 0xA0000004) State.reset =
    .next { State.reset with responses := [.value 0x000FFF0F], cycle := 1 } := by rfl

theorem test_cfgrd_wtr : responses? (exec (.cfgrdWtr 0xA0000008) { State.reset with wtr := 0x201 }) =
    some [.value 0x201] := by decide

/-- Rows i and h; reserved codes are stored. -/
theorem test_cfgwr_bcr : exec (.cfgwrBcr 0xA0000000 0xFFFFFF11) State.reset =
      .next { State.reset with bcr := 0x11, responses := [.written], cycle := 1 } ∧
    exec (.cfgwrBcr 0xA0000000 0xFFFFFFFF) State.reset =
      .next { State.reset with bcr := 0x3F, responses := [.written], cycle := 1 } := ⟨rfl, rfl⟩

/-- Rows d and e: `WTR` is untouched. -/
theorem test_cfgwr_rtr : exec (.cfgwrRtr 0xA0000004 0xFFFFFFFF) live16 =
      .next { live16 with rtr := 0x000FFF0F, responses := [.written], cycle := 1 } ∧
    exec (.cfgwrRtr 0xA0000004 0) live16 =
      .next { live16 with rtr := 0, responses := [.written], cycle := 1 } := ⟨rfl, rfl⟩

/-- Row g: only reserved bits were set. Row m's address: misaligned. -/
theorem test_cfgwr_wtr : exec (.cfgwrWtr 0xA0000008 0xFFF000F0) live16 =
      .next { live16 with wtr := 0, responses := [.written], cycle := 1 } ∧
    exec (.cfgwrWtr 0xA000000A 1) live16 =
      .next { live16 with responses := [.error .align], cycle := 1 } := ⟨rfl, rfl⟩

/-! ### Bank writes (L2.3) -/

/-- Rows a, b and k. -/
theorem test_wrcmd8 : trace? (exec (.wrcmd8 0x60000000 0x2C) live16) =
      some [⟨.write, false, 0x60000000, .d16 0x002C, wset⟩] ∧
    trace? (exec (.wrcmd8 0x60000000 0x2C) live16dup) = some [⟨.write, false, 0x60000000, .d16 0x2C2C, wset⟩] ∧
    trace? (exec (.wrcmd8 0x60000000 0x2C) live8) = some [⟨.write, false, 0x60000000, .d8 0x2C, wset⟩] := by decide

/-- Rows f, g, h and l. -/
theorem test_wrdat8 : trace? (exec (.wrdat8 0x60020001 0x7E) live16dup) =
      some [⟨.write, true, 0x60020001, .d16 0x7E7E, wset⟩] ∧
    trace? (exec (.wrdat8 0x60020000 0x1FF) live16) = some [⟨.write, true, 0x60020000, .d16 0x00FF, wset⟩] ∧
    trace? (exec (.wrdat8 0x60010000 0xFF) live8) = some [⟨.write, true, 0x60010000, .d8 0xFF, wset⟩] := by decide

/-- Row c (`BYTE_FILL` plays no part) and row n (alignment before width). -/
theorem test_wrcmd16 : trace? (exec (.wrcmd16 0x60000000 0x2C) live16dup) =
      some [⟨.write, false, 0x60000000, .d16 0x002C, wset⟩] ∧
    responses? (exec (.wrcmd16 0x60000001 0x1234) live8) = some [.error .align] := by decide

/-- Row e (`wdata[31:16]` ignored) and row m. -/
theorem test_wrdat16 : trace? (exec (.wrdat16 0x60020000 0xABCD1234) live16) =
      some [⟨.write, true, 0x60020000, .d16 0x1234, wset⟩] ∧
    responses? (exec (.wrdat16 0x60010000 0x1234) live8) = some [.error .width] := by decide

/-- Rows o to v: the state-dependent causes. -/
theorem test_write_causes :
    [(0x00, Instr.wrcmd8 0x60000000 0x2C), (0x10, .wrdat16 0x60020000 1), (0x00, .wrdat16 0x60020001 1),
      (0x13, .wrcmd8 0x60000000 1), (0x05, .wrcmd8 0x60000000 1), (0x21, .wrcmd8 0x60000000 1),
      (0x31, .wrdat16 0x60020000 1), (0x12, .wrcmd8 0x60000000 1)].map (fun x => responses? (exec x.2 (withBcr x.1))) =
    [.disabled, .disabled, .align, .config, .config, .config, .config, .disabled].map (fun c => some [.error c]) := by
  decide

/-! ### Bank reads (L2.4), the value on the pins given -/

/-- Rows f and j. -/
theorem test_rdcmd8 : (bankReadOf 0x9341 .b8 false 0x60000000 live16).responses = [.value 0x41] ∧
    (bankReadOf 0x9341 .b8 false 0x60000000 live16).trace = [⟨.read, false, 0x60000000, .d16 0x9341, rset⟩] := by decide

/-- Rows d and i. -/
theorem test_rddat8 : (bankReadOf 0xBEEF .b8 true 0x60020000 live16).responses = [.value 0xEF] ∧
    (bankReadOf 0xFFA5 .b8 true 0x60010000 live8).trace = [⟨.read, true, 0x60010000, .d8 0xA5, rset⟩] := by decide

/-- Row e. -/
theorem test_rdcmd16 : (bankReadOf 0x9341 .b16 false 0x60000000 live16).responses = [.value 0x9341] := by decide

/-- Rows a, g and k. -/
theorem test_rddat16 : (bankReadOf 0xBEEF .b16 true 0x60020000 live16).responses = [.value 0xBEEF] ∧
    responses? (exec (.rddat16 0x60020001) live16) = some [.error .align] ∧
    responses? (exec (.rddat16 0x60010000) live8) = some [.error .width] := by decide

/-! ### Steps on requests that are no operation (L2.2 k to o, L2.6) -/

theorem test_illegal_requests :
    [⟨true, .b16, 0xA0000000, 0x11⟩, ⟨false, .b8, 0xA000000D, 0⟩, ⟨true, .b32, 0xA0000002, 1⟩,
      ⟨false, .b32, 0xA000000C, 0⟩, ⟨true, .b32, 0xA000000E, 1⟩, ⟨true, .b32, 0x60020001, 0⟩,
      (⟨true, .b8, 0xA000000F, 1⟩ : Request)].map (fun r => responses? (step (State.reset.present r))) =
    [.size, .size, .align, .reserved, .align, .size, .size].map (fun c => some [.error c]) := by decide

/-- L2.6 h. -/
theorem test_outside : step (State.reset.present ⟨true, .b32, 0x70000000, 0⟩) = .refused .outsideRegions := by rfl

/-! ### The sequencer (L2.5) -/

/-- L2.5 (a): `WRDAT16 0x60020000, 0x1234` presented. -/
def presented : State := live16.present ⟨true, .b16, 0x60020000, 0x1234⟩

/-- Its latch. -/
def latched : TransferLatch := ⟨true, true, .w16, 0x1234, 0x60020000, wset⟩

/-- Cycle 1 of table (a). -/
def inAddr : State := { presented with phase := .addr, cnt := 0, cur := latched, cycle := 1 }

/-- Cycle 4 of table (a), the last `DATA` cycle. -/
def lastData : State := { presented with phase := .data, cnt := 0, cur := latched, cycle := 4 }

/-- A read of L2.5 (b) in its first `TURN` cycle. -/
def inTurn : State := { live16 with
  phase := .turn, cnt := 1, cur := ⟨false, true, .w16, 0, 0x60020000, rset⟩
  responses := [.value 0], trace := [⟨.read, true, 0x60020000, .d16 0, rset⟩], dev := 1, cycle := 20 }

/-- Cycles 0 and 1 of table (a). -/
theorem test_accept : clockEdge presented = .next inAddr ∧
    pins presented = ⟨true, true, true, false, none⟩ ∧
    pins inAddr = ⟨false, true, true, true, some (.d16 0x1234)⟩ := ⟨rfl, by decide, by decide⟩

/-- Cycles 1 to 2, and 4 to 5. -/
theorem test_data : shape? (clockEdge inAddr) =
      some (.data, 2, ⟨false, true, false, true, some (.d16 0x1234)⟩) ∧
    shape? (clockEdge lastData) = some (.idle, 0, ⟨true, true, true, true, none⟩) ∧
    trace? (clockEdge lastData) = some [⟨.write, true, 0x60020000, .d16 0x1234, wset⟩] := by decide

/-- Cycle 4: the response, and cycles 0 and 1: none. -/
theorem test_response : portOut lastData = ⟨true, false, none⟩ ∧ portOut presented = .quiet ∧
    portOut inAddr = .quiet := by decide

/-- L2.5 (b): cycles 20 to 22. -/
theorem test_turn : shape? (clockEdge inTurn) = some (.turn, 0, ⟨true, true, true, true, none⟩) ∧
    shape? (clockEdge { inTurn with cnt := 0 }) = some (.idle, 0, ⟨true, true, true, true, none⟩) := by decide

/-- L2.5 (a) to (d): latencies and periods. -/
theorem test_lengths : (wset.latency, wset.period) = (5, 5) ∧ (rset.latency, rset.period) = (20, 22) ∧
    (timingOf 0).period = 2 ∧ ((timingOf 0x000FFF0F).latency, (timingOf 0x000FFF0F).period) = (272, 287) := by decide

/-! ### Pseudo-instructions and timing words (L2.2, L2.7) -/

theorem test_timing_word : [⟨0, 0, 0⟩, ⟨1, 2, 0⟩, ⟨3, 15, 2⟩, ⟨15, 255, 15⟩, ⟨17, 300, 16⟩, ⟨16, 256, 0⟩].map timingWord =
    [0, 0x201, 0x20F03, 0x000FFF0F, 0x2C01, 0] := by decide

theorem test_send_command : sendCommand Config.reference8 0x2A [0x00, 0x10, 0x00, 0xEF] =
    [.wrcmd8 0x60000000 0x2A, .wrdat8 0x60010000 0x00, .wrdat8 0x60010000 0x10, .wrdat8 0x60010000 0x00,
      .wrdat8 0x60010000 0xEF] := by decide

theorem test_send_data : sendData Config.reference .w16 [0xF800, 0x07E0, 0x001F] =
    [.wrdat16 0x60020000 0xF800, .wrdat16 0x60020000 0x07E0, .wrdat16 0x60020000 0x001F] ∧
    readData Config.reference8 .w8 = [.rddat8 0x60010000] := by decide

theorem test_initializer : initializer Config.reference ⟨3, 15, 2⟩ ⟨1, 2, 0⟩ .w16 =
    [.cfgwrRtr 0xA0000004 0x20F03, .cfgwrWtr 0xA0000008 0x201, .cfgwrBcr 0xA0000000 0x11] := by decide

/-! ### Reset (L2.8) -/

/-- Row e: reset in a `DATA` cycle. Rows a, b and d. -/
theorem test_reset : pins lastData.assertReset = ⟨true, true, true, false, none⟩ ∧
    lastData.assertReset.responses = [] ∧ lastData.assertReset.trace = [] ∧ lastData.assertReset.host = [] ∧
    lastData.assertReset.releaseReset.wtr = 0x000FFF0F ∧ lastData.assertReset.releaseReset.bcr = 0 := by decide

/-- R140: a configuration read held through reset: no response while `rst_n = 0` nor at the first edge after its return,
then the answer. -/
def heldThroughReset : State := (State.reset.present ⟨false, .b32, 0xA0000008, 0⟩).assertReset

theorem test_first_edge : portOut heldThroughReset = .quiet ∧ portOut heldThroughReset.releaseReset = .quiet ∧
    ∃ t, clockEdge heldThroughReset.releaseReset = .next t ∧ portOut t = ⟨true, false, some 0x000FFF0F⟩ ∧
      responses? (step t) = some [.value 0x000FFF0F] :=
  ⟨by decide, by decide, _, rfl, by decide, by decide⟩

/-- R145: with 8 pins bound `D[15:8]` of a 16-bit write is lost. -/
theorem test_board : boardLanes .w8 (.d16 0x1234) = (0x34, none) ∧
    boardLanes .w16 (.d16 0x1234) = (0x34, some 0x12) ∧ boardLanes .w16 (.d8 0x34) = (0x34, none) := by decide

/-! ### Witnesses: for each statement with hypotheses, data that meet them together, clause by clause -/

/-- The request of `presented`, and a read of the same port. -/
def wreq : Request := ⟨true, .b16, 0x60020000, 0x1234⟩
def rreq : Request := ⟨false, .b16, 0x60020000, 0⟩

/-- A read presented on the live 16-bit bus. -/
def presentedRead : State := live16.present rreq

theorem witness_OpcodeMapIsUnambiguous : ∃ row ∈ opTable, ∃ row' ∈ opTable,
    0x28#7 &&& row.mask = row.pattern ∧ 0x28#7 &&& row'.mask = row'.pattern :=
  ⟨_, List.mem_cons_self, _, List.mem_cons_self, by decide, by decide⟩

theorem witness_DecodeOfEncode : Config.reference.Valid ∧ (Instr.wrdat16 0x63FFFFFE 0xF800).wellFormed Config.reference ∧
    (Instr.cfgwrWtr 0xA000000B 1).wellFormed Config.reference ∧ (Instr.rdcmd8 0x60000000).wellFormed Config.reference := by
  decide

/-- A write, and a read whose `wdata` is not 0. -/
theorem witness_EncodeOfDecode : Config.reference.Valid ∧
    decodeBits Config.reference 0x4600200010000007E#67 = .ok (.wrdat8 0x60020001#32 0x7E#32) ∧
    decodeBits Config.reference 0x060020001FFFFFFFF#67 = .ok (.rddat8 0x60020001#32) := by decide

/-- The six clauses. -/
theorem witness_DecoderRejectsByName : decodeAddress Config.reference 0xA0000010 = .outside ∧
    decodeAddress Config.reference 0xA000000F = .cfg 3 ∧ decodeAddress Config.reference 0xA0000000 = .cfg 0 ∧
    decodeAddress Config.reference 0x60000000 = .bank false ∧ decodeAddress Config.reference 0x63FFFFFF = .bank true := by
  decide

/-- Used by `AddressDecoderMatchesRanges`, `CommandAndDataAddress`, `EveryRowHasARequest`, `ResetMeetsInvariant`. Last: the
narrowest window at the bottom of the address space, `RS_BIT = 0`, and one up to its top. -/
theorem witness_Valid : Config.reference.Valid ∧ Config.reference8.Valid ∧
    Params.Valid ⟨0, 1, 0, 0xFFFFFFF0, .dup, .w8⟩ ∧ Params.Valid ⟨0x80000000, 31, 30, 0, .zero, .w16⟩ := by decide

theorem witness_StepRunsDecodedInstruction : presented.Ready ∧ presented.host = wreq :: [] ∧
    decodeRequest presented.params wreq = .ok (.wrdat16 0x60020000 0x1234) := by decide

/-- A machine that is ready with any request presented. -/
theorem witness_ready (r : Request) : (State.reset.present r).Ready ∧ (State.reset.present r).host = r :: [] :=
  ⟨⟨rfl, rfl⟩, rfl⟩

/-- The clauses of `RequestChecksInOrder` (with `witness_ready`), at the edges of the regions; the states and addresses of
the bank checks are those of `witness_BankChecksInOrder`. -/
theorem witness_RequestChecksInOrder : decodeAddress State.reset.params 0x5FFFFFFF = .outside ∧
    decodeAddress State.reset.params 0xA000000D = .cfg 3 ∧ (0xA000000D#32).extractLsb' 0 2 ≠ 0#2 ∧
    decodeAddress State.reset.params 0xA000000C = .cfg 3 ∧ (0xA000000C#32).extractLsb' 0 2 = 0#2 ∧
    decodeAddress State.reset.params 0xA0000000 = .cfg 0 ∧ (0xA0000000#32).extractLsb' 0 2 = 0#2 ∧
    decodeAddress State.reset.params 0x60000000 = .bank false ∧
    decodeAddress State.reset.params 0x63FFFFFF = .bank true := by decide

/-- A configuration read and write that pass, a failing configuration request and a failing bank request, for
`ErrorResponseAtClockLevel` and `ConfigAccessAtClockLevel`; the edge of a running transfer is
`witness_TransferIsUndisturbed`. -/
theorem witness_clock_level_answers : cfgCheck .b32 0xA0000008 = none ∧ decodeAddress State.reset.params 0xA0000008 = .cfg 2 ∧
    cfgCheck .b32 0xA000000C = some .reserved ∧ decodeAddress State.reset.params 0xA000000C = .cfg 3 ∧
    bankCheck State.reset.bcr .b16 0x60020000 = .error .disabled ∧
    decodeAddress State.reset.params 0x60020000 = .bank true := by decide

theorem witness_OutsideRequestsAreNotFdbics : decodeAddress State.reset.params 0x5FFFFFFF = .outside ∧
    decodeAddress State.reset.params 0x64000000 = .outside := by decide

theorem witness_NothingHappensWithoutARequest : State.reset.Ready ∧ State.reset.host = [] := by decide

/-- Both refusals are met: a request of neither region, and a transfer whose request is gone or changed. -/
theorem witness_StopsAreNamed :
    step (State.reset.present ⟨false, .b8, 0x5FFFFFFF, 0⟩) = .refused .outsideRegions ∧
    step { inAddr with host := [] } = .refused .requestNotHeld ∧
    step { lastData with host := [rreq] } = .refused .requestNotHeld := ⟨rfl, rfl, rfl⟩

/-- Both clauses of `ConfigWritesStoreMaskedValue` and `ConfigReadsReturnRegister`. -/
theorem witness_config_clauses : State.reset.Ready ∧
    (0xA0000008#32).extractLsb' 0 2 = 0#2 ∧ (0xA0000008#32).extractLsb' 2 2 ≠ 3#2 ∧
    (0xA0000003#32).extractLsb' 0 2 ≠ 0#2 := by decide

theorem witness_ConfigReadBack : State.reset.Ready ∧ State.reset.params.Valid ∧
    (cfgwrOf .rtr 0xA0000004 5).wellFormed State.reset.params ∧ (cfgrdOf .wtr 0xA0000008).wellFormed State.reset.params ∧
    (0xA0000004#32).toNat % 4 = 0 ∧ (0xA0000008#32).toNat % 4 = 0 := by decide

/-- A live bank of each width; used by `ByteWritesRunOneCycle`, `HalfwordWritesRunOneCycle`, `ByteReadsRunOneCycle`,
`HalfwordReadsRunOneCycle` and the adapter statements. Also an enabled bank with a reserved bit set, which a step never leaves but the statements allow. -/
theorem witness_Live : live16.Ready ∧ Live live16 .w16 ∧ live8.Ready ∧ Live live8 .w8 ∧
    Live (withBcr 0xFFFFFFD1) .w16 ∧ (0x63FFFFFE#32).getLsbD 0 = false := by decide

/-- The clauses of `BankChecksInOrder`: odd address; even and disabled; even, enabled and not legal (each field);
an 8-bit bus. -/
theorem witness_BankChecksInOrder : (0x60020001#32).getLsbD 0 = true ∧ (0x60020000#32).getLsbD 0 = false ∧
    (withBcr 0x3E).bcr.getLsbD 0 = false ∧
    ((withBcr 0x03).bcr.getLsbD 0 = true ∧ ¬LegalBcr (withBcr 0x03).bcr) ∧
    ((withBcr 0x05).bcr.getLsbD 0 = true ∧ ¬LegalBcr (withBcr 0x05).bcr) ∧
    ((withBcr 0x21).bcr.getLsbD 0 = true ∧ ¬LegalBcr (withBcr 0x21).bcr) ∧
    ((withBcr 0x31).bcr.getLsbD 0 = true ∧ ¬LegalBcr (withBcr 0x31).bcr) ∧ Live (withBcr 0x01) .w8 := by decide

theorem witness_ErrorResponseChangesNothing : ∃ t, (State.reset.present wreq).Ready ∧
    step (State.reset.present wreq) = .next t ∧ t.responses = (State.reset.present wreq).responses ++ [.error .disabled] :=
  ⟨_, ⟨rfl, rfl⟩, rfl, rfl⟩

/-- Both clauses: an accepted operation, a refused one and a configuration operation. -/
theorem witness_OneCyclePerAcceptedRequest : (Instr.wrdat16 0x60020000 1).isBank = true ∧
    bankCheck live16.bcr (Instr.wrdat16 0x60020000 1).request.size 0x60020000 = .ok .w16 ∧
    bankCheck live8.bcr (Instr.wrdat16 0x60020000 1).request.size 0x60020000 = .error .width ∧
    (Instr.cfgrdBcr 0xA0000000).isBank = false := by decide

/-- Both directions. -/
theorem witness_TimingNeverCrossApplied : ∃ t u, exec (.wrdat8 0x60020000 1) live16 = .next t ∧
    exec (.rddat8 0x60020000) live16 = .next u ∧ (Instr.wrdat8 0x60020000 1).isBank = true ∧
    (Instr.wrdat8 0x60020000 1).request.write = true ∧ (Instr.rddat8 0x60020000).isBank = true ∧
    (Instr.rddat8 0x60020000).request.write = false :=
  ⟨_, _, rfl, rfl, by decide, by decide, by decide, by decide⟩

/-- A 16-bit request, and an 8-bit request at an address whose bit 0 is the other one. -/
theorem witness_WindowAddressesAlias : presented.Ready ∧ presented.host = wreq :: [] ∧
    decodeAddress presented.params wreq.addr = .bank true ∧ decodeAddress presented.params 0x63FFFFFE = .bank true ∧
    (wreq.size = .b16 → (0x63FFFFFE#32).getLsbD 0 = wreq.addr.getLsbD 0) ∧
    decodeAddress presented.params 0x63FFFFFF = .bank true ∧
    ({ wreq with size := .b8 }.size = .b16 → (0x63FFFFFF#32).getLsbD 0 = wreq.addr.getLsbD 0) := by decide

/-- An 8-bit and a 16-bit read on a 16-bit bus, and two 8-bit reads on an 8-bit bus, one at an odd address. -/
theorem witness_ReadsAreNeverMerged : live16.Ready ∧ Live live16 .w16 ∧ live8.Ready ∧ Live live8 .w8 ∧
    (∀ x ∈ [Instr.rdcmd8 0x60000001, .rddat16 0x60020000], x.isBank = true ∧ x.request.write = false ∧
      (x.request.size = .b8 ∨ (BusWidth.w16 = .w16 ∧ x.addr.getLsbD 0 = false))) ∧
    (∀ x ∈ [Instr.rddat8 0x60010001, .rddat8 0x60010001], x.isBank = true ∧ x.request.write = false ∧
      (x.request.size = .b8 ∨ (BusWidth.w8 = .w16 ∧ x.addr.getLsbD 0 = false))) := by decide

/-- A state that meets the invariant in the middle of a transfer, one in `TURN`, one at rest and one held in reset: for
`StepKeepsInvariant`, `ClockEdgeKeepsInvariant`, `EnvironmentKeepsInvariant`, `HeldRequestsAreNeverRefused`. -/
theorem witness_Inv_flight : Inv inAddr where
  params_valid := by decide
  bcr_masked := by decide
  rtr_masked := by decide
  wtr_masked := by decide
  cnt_bounded := (by decide : (0#8).toNat < (1#4).toNat)
  flight_latched := fun _ => ⟨wreq, [], rfl, by decide, by decide, rfl⟩
  trace_in_window := fun _ he => nomatch he
  trace_answered := by decide
  held_in_reset := fun h => nomatch h

theorem witness_Inv_turn : Inv inTurn where
  params_valid := by decide
  bcr_masked := by decide
  rtr_masked := by decide
  wtr_masked := by decide
  cnt_bounded := (by decide : (1#8).toNat < (2#4).toNat)
  flight_latched := fun h => nomatch h
  trace_in_window := by decide
  trace_answered := by decide
  held_in_reset := fun h => nomatch h

theorem witness_Inv_ready : Inv presented ∧ (∃ t, step presented = .next t) ∧ (∃ t, clockEdge inAddr = .next t) ∧
    (∃ t, clockEdge inTurn = .next t) ∧
    ∀ r rest, presented.host = r :: rest → decodeAddress presented.params r.addr ≠ .outside := by
  refine ⟨⟨by decide, by decide, by decide, by decide, rfl, (fun h => nomatch h), (fun _ he => nomatch he), by decide,
    (fun h => nomatch h)⟩, ⟨_, rfl⟩, ⟨_, rfl⟩, ⟨_, rfl⟩, ?_⟩
  intro r rest h
  cases h
  decide

theorem witness_Inv_reset : Inv lastData.assertReset ∧ ∃ t, step lastData.assertReset = .next t :=
  ⟨⟨by decide, by decide, by decide, by decide, rfl, (fun h => nomatch h), (fun _ he => nomatch he), by decide,
    fun _ => rfl⟩, ⟨_, rfl⟩⟩

/-- The stage of reset before its first edge. -/
theorem witness_Inv_released : Inv lastData.assertReset.releaseReset ∧
    ∃ t, clockEdge lastData.assertReset.releaseReset = .next t :=
  ⟨⟨by decide, by decide, by decide, by decide, rfl, (fun h => nomatch h), (fun _ he => nomatch he), by decide,
    fun _ => rfl⟩, ⟨_, rfl⟩⟩

/-- The three clauses of `RegistersChangeOnlyByConfigWrites`, each with a changed register. -/
theorem witness_RegistersChangeOnlyByConfigWrites : ∃ t u v,
    step (State.reset.present ⟨true, .b32, 0xA0000000, 1⟩) = .next t ∧ t.bcr ≠ 0 ∧
    step (State.reset.present ⟨true, .b32, 0xA0000004, 1⟩) = .next u ∧ u.rtr ≠ 0x000FFF0F ∧
    step (State.reset.present ⟨true, .b32, 0xA0000008, 1⟩) = .next v ∧ v.wtr ≠ 0x000FFF0F :=
  ⟨_, _, _, rfl, by decide, rfl, by decide, rfl, by decide⟩

/-- A step that serves a request, with an event and with an error, and one that serves none. -/
theorem witness_StrictRequestOrder : ∃ t u v, presented.rst = .over ∧ step presented = .next t ∧ t.trace ≠ [] ∧
    step (State.reset.present wreq) = .next u ∧ u.responses = [.error .disabled] ∧ step inAddr = .next v :=
  ⟨_, _, _, rfl, rfl, by decide, rfl, by decide, rfl⟩

theorem witness_FaultedRunStaysBad : ∃ t, { presented with responses := [.error .size] }.rst = .over ∧
    step { presented with responses := [.error .size] } = .next t ∧
    goodRun { presented with responses := [.error .size] } = false := ⟨_, rfl, rfl, by decide⟩

/-- The accepted transfers of `ClockLevelRefinesTransaction`, `PhaseSchedule`, `ResponseInLastDataCycle`, `PinWaveform`,
`AcceptanceLatchesRequest`: a write with `(A, S, B) = (1, 2, 0)` and a read with `(3, 15, 2)`, and the values of `k`
where the clauses meet. -/
theorem witness_accepted_transfers : presented.Ready ∧ presented.host = wreq :: [] ∧
    decodeAddress presented.params wreq.addr = .bank true ∧ bankCheck presented.bcr wreq.size wreq.addr = .ok .w16 ∧
    decodeRequest presented.params wreq = .ok (.wrdat16 0x60020000 0x1234) ∧
    presentedRead.Ready ∧ presentedRead.host = rreq :: [] ∧
    decodeAddress presentedRead.params rreq.addr = .bank true ∧
    bankCheck presentedRead.bcr rreq.size rreq.addr = .ok .w16 ∧
    decodeRequest presentedRead.params rreq = .ok (.rddat16 0x60020000) ∧
    tripleAt presented.wtr = ⟨1, 2, 0⟩ ∧ tripleAt presentedRead.rtr = ⟨3, 15, 2⟩ := by decide

/-- `PhaseSchedule` at the values of `k` where its clauses meet, for the write: cycle 0, the one `ADDR` cycle, the first
and the last `DATA` cycle, the cycle after it. -/
theorem witness_PhaseSchedule : [0, 1, 2, 4, 5].map (fun k => match clockRun k presented with
      | .next u => some u.phase | .fault _ => none | .refused _ => none) =
    [some .idle, some .addr, some .data, some .data, some .idle] := by decide

/-- A configuration access and a failing bank request. -/
theorem witness_ImmediateAnswersTakeOneCycle :
    decodeAddress State.reset.params 0xA0000000 ≠ .outside ∧ (∀ rs, decodeAddress State.reset.params 0xA0000000 ≠ .bank rs) ∧
    decodeAddress State.reset.params wreq.addr = .bank true ∧
    bankCheck State.reset.bcr wreq.size wreq.addr = .error .disabled := by decide

/-- `PinsByPhase`: every phase, both directions, and an edge at which `RS` changes. -/
theorem witness_PinsByPhase : presented.phase = .idle ∧ inTurn.phase = .turn ∧
    (inAddr.phase = .addr ∧ inAddr.cur.write = true) ∧ (lastData.phase = .data ∧ lastData.cur.write = true) ∧
    ({ inTurn with phase := .addr }.phase = .addr ∧ { inTurn with phase := .addr }.cur.write = false) ∧
    ({ inTurn with phase := .data }.phase = .data ∧ { inTurn with phase := .data }.cur.write = false) ∧
    clockEdge presented = .next inAddr ∧ (pins inAddr).rs ≠ (pins presented).rs :=
  ⟨rfl, rfl, ⟨rfl, rfl⟩, ⟨rfl, rfl⟩, ⟨rfl, rfl⟩, ⟨rfl, rfl⟩, rfl, by decide⟩

/-- With `BUSTURN = 0` (only `k = 1`) and with `BUSTURN = 2` (`k` from 1 to 3). -/
theorem witness_IdleGapBetweenTransfers : lastData.rst = .over ∧ lastData.phase = .data ∧ lastData.cnt = 0 ∧
    lastData.host = wreq :: [] ∧ wreq.write = lastData.cur.write ∧ wreq.addr = lastData.cur.addr ∧
    lastData.cur.t.busturn = 0 ∧ { lastData.cur with t := rset }.t.busturn = 2 := by decide

theorem witness_TransferIsUndisturbed : ∃ t, inAddr.rst = .over ∧ inAddr.phase ≠ .idle ∧ clockEdge inAddr = .next t :=
  ⟨_, rfl, by decide, rfl⟩

/-- `NothingIsAcceptedInReset` (in either stage) and `ResetCutsTransferOff` (in either phase), and the first clause of
`RequestChecksInOrder`. -/
theorem witness_reset_statements : lastData.assertReset.rst = .asserted ∧
    lastData.assertReset.releaseReset.rst = .released ∧ lastData.phase = .data ∧
    lastData.host = wreq :: [] ∧ inAddr.phase = .addr ∧ inAddr.host = wreq :: [] := by decide

/-- Both sides of the fit. -/
theorem witness_TimingWordTruncates : FitsFields ⟨15, 255, 15⟩ ∧ ¬FitsFields ⟨16, 255, 15⟩ := by decide

theorem witness_InitializerMakesBankLive (rtp wtp : TimingParameters) (n : BusWidth) :
    let s := { State.reset with host := (initializer State.reset.params rtp wtp n).map Instr.request ++ [] }
    s.Ready ∧ s.params.Valid ∧ s.host = (initializer s.params rtp wtp n).map Instr.request ++ [] :=
  have hv : State.reset.params.Valid := by decide
  ⟨⟨rfl, rfl⟩, hv, rfl⟩

/-- With either `BYTE_FILL` there is one instruction of each form. -/
theorem witness_CommandFormsAgree : live16.Ready ∧ live16.params.Valid ∧ live16dup.params.Valid ∧ Live live16dup .w16 ∧
    writeCommand live16.params 0x2C = [.wrcmd8 0x60000000 0x2C] ∧
    writeCommandWide live16.params 0x2C = [.wrcmd16 0x60000000 0x2C] ∧
    writeCommandWide live16dup.params 0x2C = [.wrcmd16 0x60000000 0x2C2C] := by decide

/-- `SendCommandTrace`, `SendDataTrace` and `ReadDataTrace`, on either bus. -/
theorem witness_adapter_statements (opcode : Byte) (params : List Byte) (payload : List Half) :
    let a := { live16 with host := (sendCommand live16.params opcode params).map Instr.request ++ [] }
    let b := { live16 with host := (sendData live16.params .w16 payload).map Instr.request ++ [] }
    let c := { live8 with host := (readData live8.params .w8).map Instr.request ++ [] }
    (a.Ready ∧ a.params.Valid ∧ Live a .w16 ∧
      a.host = (sendCommand a.params opcode params).map Instr.request ++ []) ∧
    (b.Ready ∧ b.params.Valid ∧ b.params.Reaches16 ∧ Live b .w16 ∧
      b.host = (sendData b.params .w16 payload).map Instr.request ++ []) ∧
    (c.Ready ∧ c.params.Valid ∧ Live c .w8 ∧ c.host = (readData c.params .w8).map Instr.request ++ []) :=
  have h16 : Live live16 .w16 := by decide
  have h8 : Live live8 .w8 := by decide
  have hv : live16.params.Valid ∧ live16.params.Reaches16 ∧ live8.params.Valid := by decide
  ⟨⟨⟨rfl, rfl⟩, hv.1, h16, rfl⟩, ⟨⟨rfl, rfl⟩, hv.1, hv.2.1, h16, rfl⟩, ⟨rfl, rfl⟩, hv.2.2, h8, rfl⟩

/-! ### The board (R143, R146) -/

/-- A board on which the upper data lines are not bound loses them; one wired to another address bit gives the device
another register-select level; an unbound write strobe never selects it. -/
theorem test_seenByDevice :
    (seenByDevice (Board.ofParams Config.reference) ⟨.write, true, 0x60020000, .d16 0x1234, wset⟩) =
      ⟨true, some true, 0xFFFF, 0x1234⟩ ∧
    (seenByDevice { Board.ofParams Config.reference with data := 0x00FF } ⟨.write, true, 0x60020000, .d16 0x1234, wset⟩) =
      ⟨true, some true, 0x00FF, 0x0034⟩ ∧
    (seenByDevice { Board.ofParams Config.reference with rsBit := 16 } ⟨.write, true, 0x60020000, .d16 0x1234, wset⟩).rs =
      some false ∧
    (seenByDevice { Board.ofParams Config.reference with wr := false }
      ⟨.write, true, 0x60020000, .d16 0x1234, wset⟩).selected = false := by decide

/-- Needs met exactly at `(A, S + 1, B + 1) = (3, 16, 3)`, and one more of each not met. -/
theorem test_needs : DeviceNeeds.met ⟨3, 16, 3⟩ rset = true ∧ DeviceNeeds.met ⟨4, 16, 3⟩ rset = false ∧
    DeviceNeeds.met ⟨3, 17, 3⟩ rset = false ∧ DeviceNeeds.met ⟨3, 16, 4⟩ rset = false := by decide

/-- Both clauses, the second with the event of `inTurn` (its invariant is `witness_Inv_turn`). -/
theorem witness_BoundPinsReachTheBoard : PinsBound (Board.ofParams inAddr.params) inAddr.params inAddr.cur.n ∧
    (⟨.read, true, 0x60020000, .d16 0, rset⟩ : BusEvent) ∈ inTurn.trace ∧
    PinsBound (Board.ofParams inTurn.params) inTurn.params .w16 ∧
    PinsBound (Board.ofParams live8.params) live8.params .w8 := by decide

/-- A write whose cycle is performed by the step, on a device that needs just these counts (the invariant is
`witness_Inv_ready`). -/
theorem witness_AcceptedCountsGiveAcceptedCycles : ∃ t, DeviceAccepts (acceptsOf ⟨3, 16, 3⟩ ⟨1, 3, 1⟩) presented ∧
    step presented = .next t ∧ t.trace ≠ [] := ⟨_, by decide, rfl, by decide⟩

/-! ### The end of reset -/

/-- A configuration request, and a bank request. -/
theorem witness_HeldRequestIsAnsweredAfterReset : heldThroughReset.releaseReset.rst = .released ∧
    heldThroughReset.releaseReset.host = ⟨false, .b32, 0xA0000008, 0⟩ :: [] ∧
    decodeAddress heldThroughReset.releaseReset.params 0xA0000008 = .cfg 2 ∧
    decodeAddress heldThroughReset.releaseReset.params wreq.addr = .bank true := by decide

end Sys2Proof.Tests
end

section
/-! What an instruction does to the configuration registers and what it takes from them. -/

namespace Sys2Proof.Machine

/-! ### Configuration operations -/

theorem exec_cfgwrOf (k : ConfigReg) (a v : Word) (s : State) :
    exec (cfgwrOf k a v) s = .next (configWrite k a v s) := by
  cases k <;> rfl

theorem exec_cfgrdOf (k : ConfigReg) (a : Word) (s : State) :
    exec (cfgrdOf k a) s = .next (configRead k a s) := by
  cases k <;> rfl

/-- An aligned address in the word of a register of R14 passes the checks of R60. -/
theorem cfgCheck_of_inConfigWord {p : Params} {k : Nat} {a : Word} (hv : p.Valid) (hk : k < 3)
    (h : inConfigWord p k a = true) (ha : a.toNat % 4 = 0) : cfgCheck .b32 a = none := by
  obtain ⟨-, -, ⟨hbase, -⟩, -⟩ := hv
  simp only [inConfigWord, Bool.and_eq_true, decide_eq_true_eq] at h
  have hlow : a.extractLsb' 0 2 = 0b00#2 := by
    apply BitVec.eq_of_toNat_eq
    simpa [BitVec.extractLsb'] using ha
  have hreg : a.extractLsb' 2 2 ≠ 0b11#2 := by
    intro e
    have e' := congrArg BitVec.toNat e
    rw [extractLsb'_2_2] at e'
    simp only [BitVec.toNat_ofNat] at e'
    omega
  simp [cfgCheck_b32, hlow, hreg]

theorem configWrite_of_wellFormed {s : State} {k : ConfigReg} {a v : Word} (hv : s.params.Valid)
    (h : (cfgwrOf k a v).wellFormed s.params = true) (ha : a.toNat % 4 = 0) :
    configWrite k a v s = answer .written (s.writeReg k v) := by
  have hc : cfgCheck .b32 a = none := by
    cases k <;> exact cfgCheck_of_inConfigWord hv (by decide) h ha
  simp only [configWrite, hc]

theorem configRead_of_wellFormed {s : State} {k : ConfigReg} {a : Word} (hv : s.params.Valid)
    (h : (cfgrdOf k a).wellFormed s.params = true) (ha : a.toNat % 4 = 0) :
    configRead k a s = answer (.value (s.readReg k)) s := by
  have hc : cfgCheck .b32 a = none := by
    cases k <;> exact cfgCheck_of_inConfigWord hv (by decide) h ha
  simp only [configRead, hc]

/-- R19: what a register holds after a write to the same or to another one. -/
theorem readReg_writeReg (s : State) (k j : ConfigReg) (v : Word) :
    (s.writeReg k v).readReg j = if j = k then v &&& regMask k else s.readReg j := by
  cases k <;> cases j <;> rfl

/-! What a register write leaves alone, whichever the register. -/

section
variable (s : State) (k : ConfigReg) (v : Word)

@[simp] theorem writeReg_params : (s.writeReg k v).params = s.params := by cases k <;> rfl
@[simp] theorem writeReg_rst : (s.writeReg k v).rst = s.rst := by cases k <;> rfl
@[simp] theorem writeReg_phase : (s.writeReg k v).phase = s.phase := by cases k <;> rfl
@[simp] theorem writeReg_dev : (s.writeReg k v).dev = s.dev := by cases k <;> rfl
@[simp] theorem writeReg_trace : (s.writeReg k v).trace = s.trace := by cases k <;> rfl
@[simp] theorem writeReg_responses : (s.writeReg k v).responses = s.responses := by cases k <;> rfl
@[simp] theorem pins_writeReg : pins (s.writeReg k v) = pins s := by cases k <;> rfl

end

@[simp] theorem readReg_answer (x : Response) (s : State) (j : ConfigReg) : (answer x s).readReg j = s.readReg j := by
  cases j <;> rfl

@[simp] theorem pins_answer (x : Response) (s : State) : pins (answer x s) = pins s := rfl

/-- Settles O16: both requests pass their checks, so the read meets the register that the write left. -/
theorem configReadBack : Obligations.ConfigReadBack := by
  intro s k j a b v _ hv hwf hwf' ha hb
  have hp : (answer .written (s.writeReg k v)).params = s.params := writeReg_params s k v
  refine ⟨answer .written (s.writeReg k v), _, ?_, (exec_cfgrdOf j b _).trans
    (congrArg _ (configRead_of_wellFormed (hp ▸ hv) (hp ▸ hwf') hb)), ?_, ?_, ?_, ?_⟩
  · rw [exec_cfgwrOf, configWrite_of_wellFormed hv hwf ha]
  · rw [readReg_answer, readReg_writeReg]
    cases k <;> simp [regMask]
  · simp
  · simp only [pins_answer, pins_writeReg]
  · simp

/-! ### Bank operations and the timing registers -/

theorem exec_of_bank_write {i : Instr} (hb : i.isBank = true) (hw : i.request.write = true) (s : State) :
    exec i s = .next (bankWrite i.request.size i.rsBit i.addr i.wdata s) := by
  obtain ⟨hc, -⟩ | ⟨hc, -⟩ | ⟨-, -, e⟩ | ⟨-, hr, -⟩ := exec_shape i s
  · simp [hb] at hc
  · simp [hb] at hc
  · exact e
  · simp [hw] at hr

theorem exec_of_bank_read {i : Instr} (hb : i.isBank = true) (hr : i.request.write = false) (s : State) :
    exec i s = .next (bankRead i.request.size i.rsBit i.addr s) := by
  obtain ⟨hc, -⟩ | ⟨hc, -⟩ | ⟨-, hw, -⟩ | ⟨-, -, e⟩ := exec_shape i s
  · simp [hb] at hc
  · simp [hb] at hc
  · simp [hr] at hw
  · exact e

/-- R98: a bank write carries `RTR` along. -/
theorem bankWrite_withRtr (size : Size) (rs : Bool) (addr v x : Word) (s : State) :
    bankWrite size rs addr v { s with rtr := x } = { bankWrite size rs addr v s with rtr := x } := by
  unfold bankWrite
  cases bankCheck s.bcr size addr <;> rfl

/-- R98: a bank read carries `WTR` along. -/
theorem bankRead_withWtr (size : Size) (rs : Bool) (addr x : Word) (s : State) :
    bankRead size rs addr { s with wtr := x } = { bankRead size rs addr s with wtr := x } := by
  unfold bankRead bankReadOf
  cases bankCheck s.bcr size addr <;> rfl

/-- Settles O24: the direction decides which of the two bank operations runs, and each carries the other timing
register along. -/
theorem timingNeverCrossApplied : Obligations.TimingNeverCrossApplied := by
  intro i s t x hb ht
  constructor
  · intro hw
    rw [exec_of_bank_write hb hw] at ht ⊢
    cases ht
    rw [bankWrite_withRtr]
  · intro hr
    rw [exec_of_bank_read hb hr] at ht ⊢
    cases ht
    rw [bankRead_withWtr]

/-! ### Which step changes a register -/

/-- Parameters and configuration registers of `t` are those of `s`. -/
structure SameRegisters (s t : State) : Prop where
  params : t.params = s.params
  bcr : t.bcr = s.bcr
  rtr : t.rtr = s.rtr
  wtr : t.wtr = s.wtr

theorem sameRegisters_busCycle (c : TransferLatch) (din : Half) (x : Response) (s : State) :
    SameRegisters s ((busCycle c din s).addResponse x) := by
  rw [busCycle_eq]; constructor <;> simp

theorem sameRegisters_configRead (k : ConfigReg) (a : Word) (s : State) : SameRegisters s (configRead k a s) := by
  obtain ⟨c, -, e⟩ | ⟨-, e⟩ := configRead_cases k a s <;> rw [e] <;> exact ⟨rfl, rfl, rfl, rfl⟩

theorem sameRegisters_bankWrite (size : Size) (rs : Bool) (a v : Word) (s : State) :
    SameRegisters s (bankWrite size rs a v s) := by
  obtain ⟨c, -, e⟩ | ⟨n, -, e⟩ := bankWrite_cases size rs a v s <;> rw [e]
  · exact ⟨rfl, rfl, rfl, rfl⟩
  · exact sameRegisters_busCycle _ _ _ s

theorem sameRegisters_bankRead (size : Size) (rs : Bool) (a : Word) (s : State) :
    SameRegisters s (bankRead size rs a s) := by
  obtain ⟨c, -, e⟩ | ⟨n, -, e⟩ := bankRead_cases size rs a s <;> rw [e]
  · exact ⟨rfl, rfl, rfl, rfl⟩
  · exact sameRegisters_busCycle _ _ _ s

/-- An instruction is a bank operation or reads or writes one register. -/
theorem bank_or_config (i : Instr) :
    i.isBank = true ∨ (∃ k a, i = cfgrdOf k a) ∨ ∃ k a v, i = cfgwrOf k a v := by
  cases i
  case cfgrdBcr a => exact .inr (.inl ⟨.bcr, a, rfl⟩)
  case cfgrdRtr a => exact .inr (.inl ⟨.rtr, a, rfl⟩)
  case cfgrdWtr a => exact .inr (.inl ⟨.wtr, a, rfl⟩)
  case cfgwrBcr a v => exact .inr (.inr ⟨.bcr, a, v, rfl⟩)
  case cfgwrRtr a v => exact .inr (.inr ⟨.rtr, a, v, rfl⟩)
  case cfgwrWtr a v => exact .inr (.inr ⟨.wtr, a, v, rfl⟩)
  all_goals exact .inl (by simp [Instr.isBank, Instr.opcode])

/-- What an instruction can do to the registers. -/
theorem exec_registers {i : Instr} {s t : State} (h : exec i s = .next t) :
    SameRegisters s t ∨ ∃ k a v, i = cfgwrOf k a v ∧ t = answer .written (s.writeReg k v) := by
  obtain hb | ⟨k, a, rfl⟩ | ⟨k, a, v, rfl⟩ := bank_or_config i
  · cases hw : i.request.write with
    | true =>
      rw [exec_of_bank_write hb hw] at h
      cases h
      exact .inl (sameRegisters_bankWrite _ _ _ _ s)
    | false =>
      rw [exec_of_bank_read hb hw] at h
      cases h
      exact .inl (sameRegisters_bankRead _ _ _ s)
  · rw [exec_cfgrdOf] at h
    cases h
    exact .inl (sameRegisters_configRead k a s)
  · rw [exec_cfgwrOf] at h
    cases h
    obtain ⟨c, -, e⟩ | ⟨-, e⟩ := configWrite_cases k a v s
    · exact .inl (e ▸ ⟨rfl, rfl, rfl, rfl⟩)
    · exact .inr ⟨k, a, v, rfl, e⟩

/-- A clock cycle in the middle of a transfer, by phase. -/
theorem clockEdge_in_transfer {s t : State} (hr : s.rst = .over) (hp : s.phase ≠ .idle) (h : clockEdge s = .next t) :
    (s.phase = .addr ∧ t = addrEdge s) ∨
    (s.phase = .data ∧ ∃ r rest, s.host = r :: rest ∧ t = dataEdge (Config.deviceDrives s.dev) s r rest) ∨
    (s.phase = .turn ∧ t = turnEdge s) := by
  rw [clockEdge_running hr] at h
  unfold runningEdge at h
  split at h
  · next e _ => exact absurd e hp
  · next e _ => exact absurd e hp
  · next e _ =>
    split at h <;> cases h
    exact .inl ⟨e, rfl⟩
  · cases h
  · next r rest e hh =>
    split at h <;> cases h
    exact .inr (.inl ⟨e, r, rest, hh, rfl⟩)
  · cases h
  · next e =>
    cases h
    exact .inr (.inr ⟨e, rfl⟩)

theorem sameRegisters_addrEdge (s : State) : SameRegisters s (addrEdge s) := by
  unfold addrEdge; split <;> exact ⟨rfl, rfl, rfl, rfl⟩

section
variable (s : State)

@[simp] theorem enterTurn_params : (enterTurn s).params = s.params := by unfold enterTurn; split <;> rfl
@[simp] theorem enterTurn_rst : (enterTurn s).rst = s.rst := by unfold enterTurn; split <;> rfl
@[simp] theorem enterTurn_bcr : (enterTurn s).bcr = s.bcr := by unfold enterTurn; split <;> rfl
@[simp] theorem enterTurn_rtr : (enterTurn s).rtr = s.rtr := by unfold enterTurn; split <;> rfl
@[simp] theorem enterTurn_wtr : (enterTurn s).wtr = s.wtr := by unfold enterTurn; split <;> rfl

end

theorem sameRegisters_dataEdge (din : Half) (s : State) (r : Request) (rest : List Request) :
    SameRegisters s (dataEdge din s r rest) := by
  unfold dataEdge
  split
  · constructor <;> simp
  · exact ⟨rfl, rfl, rfl, rfl⟩

theorem sameRegisters_turnEdge (s : State) : SameRegisters s (turnEdge s) := by
  unfold turnEdge; split <;> exact ⟨rfl, rfl, rfl, rfl⟩

/-- What a step can do to the registers, reset over. -/
theorem step_registers {s t : State} (hr : s.rst = .over) (h : step s = .next t) :
    SameRegisters s t ∨ ∃ r rest k a v, s.host = r :: rest ∧ decodeRequest s.params r = .ok (cfgwrOf k a v) ∧
      t = answer .written ((s.setHost rest).writeReg k v) := by
  by_cases hp : s.phase = .idle
  · cases hh : s.host with
    | nil =>
      rw [step_no_request ⟨hr, hp⟩ hh] at h
      cases h
      exact .inl ⟨rfl, rfl, rfl, rfl⟩
    | cons r rest =>
      rw [step_serve ⟨hr, hp⟩ hh, serve] at h
      split at h
      · next i hi =>
        obtain ⟨hps, hb, hrt, hw⟩ | ⟨k, a, v, rfl, e⟩ := exec_registers h
        · exact .inl ⟨hps, hb, hrt, hw⟩
        · exact .inr ⟨r, rest, k, a, v, rfl, hi, e⟩
      · unfold serveRejected at h
        split at h <;> cases h
        exact .inl ⟨rfl, rfl, rfl, rfl⟩
  · rw [step_in_transfer hr hp] at h
    obtain ⟨-, rfl⟩ | ⟨-, r, rest, -, rfl⟩ | ⟨-, rfl⟩ := clockEdge_in_transfer hr hp h
    · exact .inl (sameRegisters_addrEdge s)
    · exact .inl (sameRegisters_dataEdge _ s r rest)
    · exact .inl (sameRegisters_turnEdge s)

/-- Settles O32: the only step that changes a register serves a `CFGWR`, and that writes its own register only. -/
theorem registersChangeOnlyByConfigWrites : Obligations.RegistersChangeOnlyByConfigWrites := by
  intro s t hr h
  obtain ⟨hp, hb, hrt, hw⟩ | ⟨r, rest, k, a, v, hh, hi, rfl⟩ := step_registers hr h
  · exact ⟨hp, fun hn => absurd hb hn, fun hn => absurd hrt hn, fun hn => absurd hw hn⟩
  · refine ⟨writeReg_params _ k v, ?_⟩
    cases k with
    | bcr => exact ⟨fun _ => ⟨r, rest, a, v, hh, hi⟩, fun hn => absurd rfl hn, fun hn => absurd rfl hn⟩
    | rtr => exact ⟨fun hn => absurd rfl hn, fun _ => ⟨r, rest, a, v, hh, hi⟩, fun hn => absurd rfl hn⟩
    | wtr => exact ⟨fun hn => absurd rfl hn, fun hn => absurd rfl hn, fun _ => ⟨r, rest, a, v, hh, hi⟩⟩

end Sys2Proof.Machine
end

section
/-! The invariant: one rule per state operation, then one clock cycle and one step, from any state that meets it. -/

namespace Sys2Proof.Machine

/-! ### The counter -/

/-- The counter of a phase that lasts one cycle per count of a nonzero field starts below the field. -/
theorem toNat_setWidth_sub_one_lt {x : BitVec 4} (hx : x ≠ 0) : (x.setWidth 8 - 1).toNat < x.toNat := by
  revert x; decide

/-- A counter that is not 0 goes down without wrapping (R101). -/
theorem toNat_sub_one_lt {c : BitVec 8} (hc : c ≠ 0) : (c - 1).toNat < c.toNat := by bv_omega

/-! ### Reset -/

/-- The reset values meet the invariant, in every stage of reset. -/
theorem inv_atReset {s : State} (hv : s.params.Valid) (k : ResetStage) : Inv (s.atReset k) where
  params_valid := hv
  bcr_masked := by rw [State.atReset_bcr]; decide
  rtr_masked := by rw [State.atReset_rtr]; decide
  wtr_masked := by rw [State.atReset_wtr]; decide
  cnt_bounded := rfl
  flight_latched := fun hf => nomatch hf
  trace_in_window := fun _ he => nomatch he
  trace_answered := Nat.le_refl 0
  held_in_reset := fun _ => rfl

/-- Under the invariant the rise of `rst_n` leaves the reset values in place. -/
theorem releaseReset_eq_atReset {s : State} (h : Inv s) (hr : s.rst = .asserted) :
    s.releaseReset = s.atReset .released := by
  have hs : s = s.atReset .asserted := hr ▸ h.held_in_reset (by simp [hr])
  rw [hs]; rfl

/-! ### One rule per state operation, with reset over -/

section
variable {s : State} (h : Inv s) (hr : s.rst = .over)
include h hr

theorem inv_advance (k : Nat) : Inv (s.advance k) :=
  { h with held_in_reset := fun hn => absurd hr hn }

/-- A change of phase keeps all but the two facts that speak of the phase. -/
theorem inv_setPhase (p : Phase) (c : BitVec 8) (hc : cntBounded (s.setPhase p c))
    (hf : flightLatched (s.setPhase p c)) : Inv (s.setPhase p c) :=
  { h with cnt_bounded := hc, flight_latched := hf, held_in_reset := fun hn => absurd hr hn }

/-- The latch may change at rest: nothing is in flight and no count is taken from it. -/
theorem inv_setCur (hp : s.phase = .idle) (c : TransferLatch) : Inv (s.setCur c) :=
  { h with
    cnt_bounded := by simpa [cntBounded, hp] using h.cnt_bounded
    flight_latched := fun hf => by simp [inFlight, hp] at hf
    held_in_reset := fun hn => absurd hr hn }

/-- With nothing in flight the host may have any requests left. -/
theorem inv_setHost (hf : inFlight s = false) (q : List Request) : Inv (s.setHost q) :=
  { h with
    flight_latched := fun ht => absurd (hf.symm.trans ht) (by decide)
    held_in_reset := fun hn => absurd hr hn }

/-- With nothing in flight a register write through its mask (R19) may change any register. -/
theorem inv_writeReg (hf : inFlight s = false) (k : ConfigReg) (v : Word) : Inv (s.writeReg k v) := by
  have masked (m : Word) : v &&& m &&& m = v &&& m := by rw [BitVec.and_assoc, BitVec.and_self]
  have noFlight {P : Prop} (ht : inFlight s = true) : P := absurd (hf.symm.trans ht) (by decide)
  cases k with
  | bcr => exact { h with
      bcr_masked := masked _, flight_latched := noFlight, held_in_reset := fun hn => absurd hr hn }
  | rtr => exact { h with
      rtr_masked := masked _, flight_latched := noFlight, held_in_reset := fun hn => absurd hr hn }
  | wtr => exact { h with
      wtr_masked := masked _, flight_latched := noFlight, held_in_reset := fun hn => absurd hr hn }

theorem inv_addResponse (x : Response) : Inv (s.addResponse x) :=
  { h with
    trace_answered := by simpa using Nat.le_succ_of_le h.trace_answered
    held_in_reset := fun hn => absurd hr hn }

/-- A bus cycle together with its response: the event lies in the window, and it is answered. -/
theorem inv_answeredEvent {e : BusEvent} (he : decodeAddress s.params e.addr = .bank e.rs) (x : Response) :
    Inv (((s.addEvent e).stepDevice).addResponse x) :=
  { h with
    trace_in_window := by
      intro e' he'
      obtain he' | rfl := List.mem_append.mp he' |>.imp_right List.mem_singleton.mp
      · exact h.trace_in_window e' he'
      · exact he
    trace_answered := by simpa using h.trace_answered
    held_in_reset := fun hn => absurd hr hn }

end

/-! ### Answers and transfers from rest -/

theorem State.Ready.inFlight_eq_false {s : State} (hr : s.Ready) : inFlight s = false := by
  simp [inFlight, hr.2]

section
variable {s : State} (h : Inv s) (hr : s.Ready)
include h hr

theorem inv_answer (x : Response) : Inv (answer x s) :=
  inv_advance (inv_addResponse h hr.1 x) hr.1 1

/-- A whole transfer with its response, its address in the window (R9, R100). -/
theorem inv_busCycle {c : TransferLatch} (hc : decodeAddress s.params c.addr = .bank c.rs) (din : Half)
    (x : Response) : Inv ((busCycle c din s).addResponse x) := by
  have hcur := inv_setCur h hr.1 hr.2 c
  have hev := inv_answeredEvent hcur hr.1 (e := eventOf c din) hc x
  exact inv_advance (inv_setPhase hev hr.1 .idle 0 rfl fun hf => nomatch hf) hr.1 c.t.period

theorem inv_bankWrite {size : Size} {rs : Bool} {addr : Word} (ha : decodeAddress s.params addr = .bank rs)
    (v : Word) : Inv (bankWrite size rs addr v s) := by
  obtain ⟨c, -, e⟩ | ⟨n, -, e⟩ := bankWrite_cases size rs addr v s <;> rw [e]
  · exact inv_answer h hr _
  · exact inv_busCycle h hr ha _ _

theorem inv_bankRead {size : Size} {rs : Bool} {addr : Word} (ha : decodeAddress s.params addr = .bank rs) :
    Inv (bankRead size rs addr s) := by
  obtain ⟨c, -, e⟩ | ⟨n, -, e⟩ := bankRead_cases size rs addr s <;> rw [e]
  · exact inv_answer h hr _
  · exact inv_busCycle h hr ha _ _

end

/-! ### One clock cycle -/

/-- R91: what an accepted request has passed. -/
theorem verdict_eq_accept {p : Params} {bcr : Word} {r : Request} {rs : Bool} {n : BusWidth}
    (hv : verdict p bcr r = .accept rs n) :
    decodeAddress p r.addr = .bank rs ∧ bankCheck bcr r.size r.addr = .ok n := by
  unfold verdict at hv
  split at hv
  · cases hv
  · split at hv <;> cases hv
  · next ha =>
    split at hv
    · cases hv
    · next hc => cases hv; exact ⟨ha, hc⟩

theorem enterTurn_of_eq {s : State} (hb : s.cur.t.busturn = 0) : enterTurn s = s.setPhase .idle s.cnt := if_pos hb

theorem enterTurn_of_ne {s : State} (hb : s.cur.t.busturn ≠ 0) :
    enterTurn s = s.setPhase .turn (s.cur.t.busturn.setWidth 8 - 1) := if_neg hb

theorem enterTurn_setHost (s : State) (q : List Request) : enterTurn (s.setHost q) = (enterTurn s).setHost q := by
  by_cases hb : s.cur.t.busturn = 0
  · rw [enterTurn_of_eq hb, enterTurn_of_eq (s := s.setHost q) hb]; rfl
  · rw [enterTurn_of_ne hb, enterTurn_of_ne (s := s.setHost q) hb]; rfl

/-- After the last `DATA` cycle nothing is in flight. -/
theorem inFlight_enterTurn (s : State) : inFlight (enterTurn s) = false := by
  unfold enterTurn; split <;> rfl

@[simp] theorem acceptEdge_rst (c : TransferLatch) (s : State) : (acceptEdge c s).rst = s.rst := by
  unfold acceptEdge; split <;> rfl

section
variable {s : State} (h : Inv s)
include h

/-- The transfer in flight was accepted at an address of the window (R32). -/
theorem inv_cur_in_window (hf : inFlight s = true) : decodeAddress s.params s.cur.addr = .bank s.cur.rs := by
  obtain ⟨r, rest, -, ha, -, hcur⟩ := h.flight_latched hf
  have haddr : s.cur.addr = r.addr := congrArg TransferLatch.addr hcur
  rw [haddr, ha]

/-- The request in flight is held, as far as the latch shows (R23). -/
theorem inv_holds (hf : inFlight s = true) : ∃ r rest, s.host = r :: rest ∧ holds s.cur r = true := by
  obtain ⟨r, rest, hh, -, -, hcur⟩ := h.flight_latched hf
  exact ⟨r, rest, hh, by rw [hcur]; exact holds_acceptLatch s r _ _⟩

variable (hr : s.rst = .over)
include hr

/-- R91: acceptance starts a transfer whose request is the presented one. -/
theorem inv_acceptEdge (hp : s.phase = .idle) {r : Request} {rest : List Request} (hh : s.host = r :: rest)
    {rs : Bool} {n : BusWidth} (hv : verdict s.params s.bcr r = .accept rs n) :
    Inv (acceptEdge (acceptLatch s r rs n) s) := by
  obtain ⟨ha, hc⟩ := verdict_eq_accept hv
  have hcur := inv_setCur h hr hp (acceptLatch s r rs n)
  have hf (p : Phase) (c : BitVec 8) : flightLatched ((s.setCur (acceptLatch s r rs n)).setPhase p c) :=
    fun _ => ⟨r, rest, hh, ha, hc, rfl⟩
  unfold acceptEdge
  split
  · exact inv_setPhase hcur hr .data _ (Nat.le_refl _) (hf _ _)
  · next hne => exact inv_setPhase hcur hr .addr _ (toNat_setWidth_sub_one_lt hne) (hf _ _)

/-- R91, R103, R104: the edge of an `IDLE` cycle with a request presented. -/
theorem inv_idleEdge (hp : s.phase = .idle) {r : Request} {rest : List Request} (hh : s.host = r :: rest) :
    Inv (idleEdge s r rest) := by
  have hready : s.Ready := ⟨hr, hp⟩
  have hrest := inv_setHost h hr hready.inFlight_eq_false rest
  unfold idleEdge
  split
  · exact inv_advance h hr 1
  · exact inv_answer hrest hready _
  · next k _ =>
    split
    · have hw := inv_writeReg hrest hr hready.inFlight_eq_false k r.wdata
      exact inv_answer hw (by simpa [State.Ready] using hready) _
    · exact inv_answer hrest hready _
  · next hv => exact inv_advance (inv_acceptEdge h hr hp hh hv) (by simpa using hr) 1

/-- R92: the edge of an `ADDR` cycle. -/
theorem inv_addrEdge (hp : s.phase = .addr) : Inv (addrEdge s) := by
  have hf (p : Phase) (c : BitVec 8) : flightLatched (s.setPhase p c) :=
    fun _ => h.flight_latched (by simp [inFlight, hp])
  have hcnt : s.cnt.toNat < s.cur.t.addset.toNat := by simpa [cntBounded, hp] using h.cnt_bounded
  unfold addrEdge
  split
  · exact inv_advance (inv_setPhase h hr .data _ (Nat.le_refl _) (hf _ _)) hr 1
  · next hne => exact inv_advance (inv_setPhase h hr .addr _ ((toNat_sub_one_lt hne).trans hcnt) (hf _ _)) hr 1

/-- R94: the phase that follows the last `DATA` cycle. -/
theorem inv_enterTurn (hc : s.cnt = 0) : Inv (enterTurn s) := by
  unfold enterTurn
  split
  · exact inv_setPhase h hr .idle _ hc fun hf => nomatch hf
  · next hne => exact inv_setPhase h hr .turn _ (toNat_setWidth_sub_one_lt hne) fun hf => nomatch hf

/-- R94: the edge of the last `DATA` cycle. The request may leave the host's list once its phase has been left. -/
theorem inv_lastDataEdge (hf : inFlight s = true) (hc : s.cnt = 0) (din : Half) (x : Response) (rest : List Request) :
    Inv ((enterTurn ((((s.addEvent (eventOf s.cur din)).stepDevice).addResponse x).setHost rest)).advance 1) := by
  rw [enterTurn_setHost]
  have hev := inv_answeredEvent h hr (e := eventOf s.cur din) (inv_cur_in_window h hf) x
  have hturn := inv_setHost (inv_enterTurn hev hr hc) (by simpa using hr) (inFlight_enterTurn _) rest
  exact inv_advance hturn (by simpa using hr) 1

/-- R93, R94: the edge of a `DATA` cycle. -/
theorem inv_dataEdge (hp : s.phase = .data) (din : Half) (r : Request) (rest : List Request) :
    Inv (dataEdge din s r rest) := by
  have hflight : inFlight s = true := by simp [inFlight, hp]
  have hcnt : s.cnt.toNat ≤ s.cur.t.datast.toNat := by simpa [cntBounded, hp] using h.cnt_bounded
  unfold dataEdge
  split
  · next hc => exact inv_lastDataEdge h hr hflight hc din _ rest
  · next hne =>
    have hc := (toNat_sub_one_lt hne).le.trans hcnt
    exact inv_advance (inv_setPhase h hr .data _ hc fun _ => h.flight_latched hflight) hr 1

/-- R95: the edge of a `TURN` cycle. -/
theorem inv_turnEdge (hp : s.phase = .turn) : Inv (turnEdge s) := by
  have hcnt : s.cnt.toNat < s.cur.t.busturn.toNat := by simpa [cntBounded, hp] using h.cnt_bounded
  unfold turnEdge
  split
  · next hc => exact inv_advance (inv_setPhase h hr .idle _ hc fun hf => nomatch hf) hr 1
  · next hne =>
    exact inv_advance (inv_setPhase h hr .turn _ ((toNat_sub_one_lt hne).trans hcnt) fun hf => nomatch hf) hr 1

end

/-- From the invariant every clock cycle has a next state, and that state meets the invariant. -/
theorem inv_clockEdge {s : State} (h : Inv s) : ∃ t, clockEdge s = .next t ∧ Inv t := by
  by_cases hr : s.rst = .over
  · cases hp : s.phase with
    | idle =>
      cases hh : s.host with
      | nil => exact ⟨_, clockEdge_idle_nil hr hp hh, inv_advance h hr 1⟩
      | cons r rest => exact ⟨_, clockEdge_idle_cons hr hp hh, inv_idleEdge h hr hp hh⟩
    | addr =>
      obtain ⟨r, rest, hh, hold⟩ := inv_holds h (by simp [inFlight, hp])
      exact ⟨_, clockEdge_addr hr hp hh hold, inv_addrEdge h hr hp⟩
    | data =>
      obtain ⟨r, rest, hh, hold⟩ := inv_holds h (by simp [inFlight, hp])
      exact ⟨_, clockEdge_data hr hp hh hold, inv_dataEdge h hr hp _ r rest⟩
    | turn => exact ⟨_, clockEdge_turn hr hp, inv_turnEdge h hr hp⟩
  · exact ⟨_, clockEdge_in_reset hr, inv_atReset h.params_valid _⟩

/-! ### One step -/

/-- In the middle of a transfer, or before reset is over, a step is one clock cycle. -/
theorem step_of_not_ready {s : State} (hr : ¬s.Ready) : step s = clockEdge s := by
  by_cases h : s.rst = .over
  · exact step_in_transfer h fun hp => hr ⟨h, hp⟩
  · rw [step_in_reset h, clockEdge_in_reset h]

/-- From the invariant a step has a next state that meets it, or is the refusal of a request of neither region (R30). -/
theorem inv_step {s : State} (h : Inv s) : (∃ t, step s = .next t ∧ Inv t) ∨
    (step s = .refused .outsideRegions ∧
      ∃ r rest, s.host = r :: rest ∧ decodeAddress s.params r.addr = .outside) := by
  by_cases hr : s.Ready
  · cases hh : s.host with
    | nil => exact .inl ⟨_, step_no_request hr hh, inv_advance h hr.1 1⟩
    | cons r rest =>
      have hrest := inv_setHost h hr.1 hr.inFlight_eq_false rest
      cases ha : decodeAddress s.params r.addr with
      | cfg k => exact .inl ⟨_, step_of_cfg hr hh ha, inv_idleEdge h hr.1 hr.2 hh⟩
      | bank rs =>
        refine .inl ⟨_, step_of_bank hr hh ha, ?_⟩
        split
        · exact inv_bankWrite hrest hr ha _
        · exact inv_bankRead hrest hr ha
      | outside => exact .inr ⟨step_of_outside hr hh ha, r, rest, rfl, ha⟩
  · exact .inl (step_of_not_ready hr ▸ inv_clockEdge h)

/-- Settles O27: from the invariant a step's next state is the one `inv_step` gives. -/
theorem stepKeepsInvariant : Obligations.StepKeepsInvariant := by
  intro s t h ht
  obtain ⟨u, hu, hinv⟩ | ⟨hx, -⟩ := inv_step h
  · rw [ht] at hu
    cases hu
    exact hinv
  · rw [ht] at hx
    cases hx

/-- Settles O31: the one refusal possible from the invariant is that of a request of neither region. -/
theorem heldRequestsAreNeverRefused : Obligations.HeldRequestsAreNeverRefused := by
  intro s h
  obtain ⟨t, ht, -⟩ | ⟨hx, r, rest, hh, hout⟩ := inv_step h
  · exact ⟨by simp [ht], fun _ => ⟨t, ht⟩⟩
  · exact ⟨by simp [hx], fun hin => absurd hout (hin r rest hh)⟩

/-- Settles O29: a request is presented behind the one in flight, and reset leaves the reset values. -/
theorem environmentKeepsInvariant : Obligations.EnvironmentKeepsInvariant := by
  intro s r h
  refine ⟨?_, ?_, ?_⟩
  · exact { h with
      flight_latched := by
        intro hf
        obtain ⟨r', rest, hh, hl⟩ := h.flight_latched hf
        exact ⟨r', rest ++ [r], congrArg (· ++ [r]) hh, hl⟩
      held_in_reset := fun hn => congrArg (·.present r) (h.held_in_reset hn) }
  · refine inv_atReset ?_ .asserted
    exact h.params_valid
  · by_cases hr : s.rst = .asserted
    · rw [releaseReset_eq_atReset h hr]
      exact inv_atReset h.params_valid .released
    · rwa [State.releaseReset_of_high hr]

/-- Settles O30: it is a state at the reset values, reset over. -/
theorem resetMeetsInvariant : Obligations.ResetMeetsInvariant :=
  fun p hv => inv_atReset (s := State.resetFor p) hv .over

end Sys2Proof.Machine
end

section
/-! The reset values (R26, R140). -/

namespace Sys2Proof.Machine

theorem atResetValues_atReset (s : State) (k : ResetStage) : AtResetValues (s.atReset k) :=
  ⟨rfl, rfl, rfl, rfl, rfl, rfl, rfl, rfl⟩

/-- R140: no response before the first rising edge after the return of `rst_n`. -/
theorem portOut_in_reset {s : State} (h : s.rst ≠ .over) : portOut s = .quiet := if_pos h

/-- Settles O46: each of the states of a reset is one at the reset values, and its port is silent. -/
theorem resetValues : Obligations.ResetValues := by
  constructor
  · intro p
    exact ⟨atResetValues_atReset (State.resetFor p) .over, ⟨rfl, rfl⟩, rfl⟩
  · intro s
    have hlow : s.assertReset.rst ≠ .over := by simp [State.assertReset]
    have hhigh : s.assertReset.releaseReset.rst ≠ .over := by simp [State.releaseReset_assertReset]
    refine ⟨atResetValues_atReset _ _, portOut_in_reset hlow, ?_, portOut_in_reset hhigh, _, clockEdge_in_reset hhigh,
      atResetValues_atReset _ _, ?_, rfl⟩
    · rw [State.releaseReset_assertReset]
      exact atResetValues_atReset _ _
    · rw [State.releaseReset_assertReset]
      exact ⟨rfl, rfl⟩

end Sys2Proof.Machine
end

section
/-! The peripheral address decoder on the window and on the two addresses software uses (R30, R31). -/

namespace Sys2Proof

/-- R30, R5: the window and the configuration block are apart, so an address of the window is the bank's. -/
theorem decodeAddress_of_inWindow {p : Params} (hv : p.Valid) {a : Word} (h : inWindow p a = true) :
    decodeAddress p a = .bank (a.getLsbD p.rsBit) := by
  obtain ⟨hbank, -, ⟨hcfg, hapart⟩, -⟩ := hv
  have hwindow := (inWindow_iff p a).mp h
  have hnotcfg : ¬a >>> 4 = p.cfgBase >>> 4 := by
    rw [ushiftRight_eq_iff_range a p.cfgBase 4 hcfg]
    unfold Params.windowEnd at hapart
    omega
  rw [decodeAddress, if_neg hnotcfg, if_pos ((ushiftRight_eq_iff_range a p.bankBase _ hbank).mpr hwindow)]

/-- R5: the base of the window is aligned, so the bits inside the window are 0 in it. -/
theorem bankBase_getLsbD {p : Params} (hv : p.Valid) {j : Nat} (hj : j < p.windowBits) :
    p.bankBase.getLsbD j = false := by
  have h := Nat.testBit_mod_two_pow p.bankBase.toNat p.windowBits j
  rw [hv.1] at h
  simpa [BitVec.getLsbD, hj] using h.symm

/-- R31: the sum does not carry, so it is the disjunction. -/
theorem dataAddress_eq_or {p : Params} (hv : p.Valid) : dataAddress p = p.bankBase ||| 1#32 <<< p.rsBit := by
  have hdisjoint : p.bankBase &&& 1#32 <<< p.rsBit = 0#32 := by
    rw [← BitVec.twoPow_eq, BitVec.and_twoPow, bankBase_getLsbD hv hv.2.1.1]
    rfl
  exact BitVec.add_eq_or_of_and_eq_zero _ _ hdisjoint

/-- The bits of the data address are those of the base, and bit `RS_BIT`. -/
theorem dataAddress_getLsbD {p : Params} (hv : p.Valid) (j : Nat) :
    (dataAddress p).getLsbD j = (p.bankBase.getLsbD j || decide (j = p.rsBit)) := by
  have hrs : p.rsBit < 32 := hv.2.1.1.trans_le hv.2.1.2
  rw [dataAddress_eq_or hv, ← BitVec.twoPow_eq, BitVec.getLsbD_or, BitVec.getLsbD_twoPow]
  simp [hrs, eq_comm]

theorem commandAddress_inWindow (p : Params) : inWindow p (commandAddress p) = true :=
  (inWindow_iff p _).mpr ⟨Nat.le_refl _, Nat.lt_add_of_pos_right (Nat.two_pow_pos _)⟩

theorem dataAddress_inWindow {p : Params} (hv : p.Valid) : inWindow p (dataAddress p) = true := by
  have hlt : 2 ^ p.rsBit < 2 ^ p.windowBits := Nat.pow_lt_pow_right (by omega) hv.2.1.1
  rw [inWindow_iff, dataAddress_toNat hv]
  exact ⟨Nat.le_add_right _ _, Nat.add_lt_add_left hlt _⟩

/-- Settles O7: no bit of the base is set inside the window, so the sum sets bit `RS_BIT` and no other. -/
theorem commandAndDataAddress : Obligations.CommandAndDataAddress := by
  intro p hv
  have hbase : p.bankBase.getLsbD p.rsBit = false := bankBase_getLsbD hv hv.2.1.1
  have hcmd := commandAddress_inWindow p
  have hdat := dataAddress_inWindow hv
  refine ⟨rfl, dataAddress_toNat hv, dataAddress_eq_or hv, ?_, hcmd, hdat, ?_, ?_⟩
  · intro j _
    rw [dataAddress_getLsbD hv, commandAddress]
    by_cases e : j = p.rsBit
    · simp [e, hbase]
    · simp [e]
  · rw [decodeAddress_of_inWindow hv hcmd, commandAddress, hbase]
  · rw [decodeAddress_of_inWindow hv hdat, dataAddress_getLsbD hv]
    simp

end Sys2Proof
end

section
/-! What a step can be: outside both regions nothing (R30, R104), and the two named stops. -/

namespace Sys2Proof.Machine

theorem verdict_of_outside {p : Params} {bcr : Word} {r : Request} (h : decodeAddress p r.addr = .outside) :
    verdict p bcr r = .unseen := by
  simp [verdict, h]

/-- Settles O11: FDBIC does not see the request, so the port is silent and the edge only advances the clock. -/
theorem outsideRequestsAreNotFdbics : Obligations.OutsideRequestsAreNotFdbics := by
  intro s r rest hr hh ha
  have hv : verdict s.params s.bcr r = .unseen := verdict_of_outside ha
  refine ⟨step_of_outside hr hh ha, ?_, ?_⟩
  · simp [portOut, portOutOf, hr.1, hr.2, hh, idleOut, hv, PortOut.quiet]
  · rw [clockEdge_idle_cons hr.1 hr.2 hh, idleEdge, hv]
    rfl

/-- U16, D37: the edge of a transfer whose request the host has let go or changed. -/
theorem clockEdge_not_held {s : State} (hr : s.rst = .over) (hp : s.phase = .addr ∨ s.phase = .data)
    (hold : ∀ r rest, s.host = r :: rest → ¬holds s.cur r = true) : clockEdge s = .refused .requestNotHeld := by
  rw [clockEdge_running hr]
  cases hh : s.host with
  | nil => obtain hp | hp := hp <;> simp [runningEdge, hp, hh]
  | cons r rest => obtain hp | hp := hp <;> simp [runningEdge, hp, hh, hold r rest hh]

/-- Everything a clock cycle in the middle of a transfer can do: the edge of its phase, or the one refusal. -/
theorem clockEdge_transfer_cases {s : State} (hr : s.rst = .over) (hp : s.phase ≠ .idle) :
    (s.phase = .addr ∧ clockEdge s = .next (addrEdge s)) ∨
    (s.phase = .data ∧ ∃ r rest, s.host = r :: rest ∧ holds s.cur r = true ∧
      clockEdge s = .next (dataEdge (Config.deviceDrives s.dev) s r rest)) ∨
    (s.phase = .turn ∧ clockEdge s = .next (turnEdge s)) ∨
    ((s.phase = .addr ∨ s.phase = .data) ∧ (∀ r rest, s.host = r :: rest → ¬holds s.cur r = true) ∧
      clockEdge s = .refused .requestNotHeld) := by
  by_cases hheld : ∃ r rest, s.host = r :: rest ∧ holds s.cur r = true
  · obtain ⟨r, rest, hh, hold⟩ := hheld
    cases hphase : s.phase with
    | idle => exact absurd hphase hp
    | addr => exact .inl ⟨rfl, clockEdge_addr hr hphase hh hold⟩
    | data => exact .inr (.inl ⟨rfl, r, rest, hh, hold, clockEdge_data hr hphase hh hold⟩)
    | turn => exact .inr (.inr (.inl ⟨rfl, clockEdge_turn hr hphase⟩))
  · have hold : ∀ r rest, s.host = r :: rest → ¬holds s.cur r = true := fun r rest hh h => hheld ⟨r, rest, hh, h⟩
    cases hphase : s.phase with
    | idle => exact absurd hphase hp
    | addr => exact .inr (.inr (.inr ⟨.inl rfl, hold, clockEdge_not_held hr (.inl hphase) hold⟩))
    | data => exact .inr (.inr (.inr ⟨.inr rfl, hold, clockEdge_not_held hr (.inr hphase) hold⟩))
    | turn => exact .inr (.inr (.inl ⟨rfl, clockEdge_turn hr hphase⟩))

/-- The host holds a request when direction and address are those of the latch. -/
theorem holds_iff (c : TransferLatch) (r : Request) : holds c r = true ↔ r.write = c.write ∧ r.addr = c.addr := by
  simp [holds]

/-- Everything a step can be: it has a next state, or it is one of two refusals, each with its cause. -/
theorem step_outcomes (s : State) :
    (∃ t, step s = .next t) ∨
    (step s = .refused .outsideRegions ∧ s.Ready ∧
      ∃ r rest, s.host = r :: rest ∧ decodeAddress s.params r.addr = .outside) ∨
    (step s = .refused .requestNotHeld ∧ s.rst = .over ∧ (s.phase = .addr ∨ s.phase = .data) ∧
      ∀ r rest, s.host = r :: rest → ¬holds s.cur r = true) := by
  by_cases hr : s.rst = .over
  · by_cases hp : s.phase = .idle
    · have hready : s.Ready := ⟨hr, hp⟩
      cases hh : s.host with
      | nil => exact .inl ⟨_, step_no_request hready hh⟩
      | cons r rest =>
        cases ha : decodeAddress s.params r.addr with
        | cfg k => exact .inl ⟨_, step_of_cfg hready hh ha⟩
        | bank rs => exact .inl ⟨_, step_of_bank hready hh ha⟩
        | outside => exact .inr (.inl ⟨step_of_outside hready hh ha, hready, r, rest, rfl, ha⟩)
    · rw [step_in_transfer hr hp]
      obtain ⟨-, e⟩ | ⟨-, r, rest, -, -, e⟩ | ⟨-, e⟩ | ⟨hphase, hold, e⟩ := clockEdge_transfer_cases hr hp
      · exact .inl ⟨_, e⟩
      · exact .inl ⟨_, e⟩
      · exact .inl ⟨_, e⟩
      · exact .inr (.inr ⟨e, hr, hphase, hold⟩)
  · exact .inl ⟨_, step_in_reset hr⟩

/-- Settles O13: none of the outcomes of a step is a fault, and its two refusals have the causes named. -/
theorem stopsAreNamed : Obligations.StopsAreNamed := by
  intro s
  obtain ⟨t, e⟩ | ⟨e, hready, hout⟩ | ⟨e, hr, hphase, hold⟩ := step_outcomes s
  · simp [e]
  · refine ⟨by simp [e], fun x hx => .inl ⟨?_, hready, hout⟩⟩
    rw [e] at hx
    cases hx
    rfl
  · refine ⟨by simp [e], fun x hx => .inr ⟨?_, hr, hphase, ?_⟩⟩
    · rw [e] at hx
      cases hx
      rfl
    · intro r rest hh
      rw [← holds_iff]
      exact hold r rest hh

end Sys2Proof.Machine
end

section
/-! Bank requests: one operation for both directions, one bus cycle if the checks pass (R36, R70, R80). -/

namespace Sys2Proof.Machine

/-- A bank request with the register-select value `rs`, in either direction. -/
def bankAccess (r : Request) (rs : Bool) (s : State) : State :=
  if r.write then bankWrite r.size rs r.addr r.wdata s else bankRead r.size rs r.addr s

/-- R9, R94: the event of an accepted bank request on a bus of width `n`. -/
def accessEvent (s : State) (r : Request) (rs : Bool) (n : BusWidth) : BusEvent :=
  eventOf (acceptLatch s r rs n) (Config.deviceDrives s.dev)

/-- R94: the response to an accepted bank request on a bus of width `n`. -/
def accessResponse (s : State) (r : Request) (n : BusWidth) : Response :=
  if r.write then .written else .value (readLane r.size (pinData n (Config.deviceDrives s.dev)))

/-- `s` after an accepted bank request. -/
def afterAccess (s : State) (r : Request) (rs : Bool) (n : BusWidth) : State :=
  transferred s (acceptLatch s r rs n) (accessEvent s r rs n) (accessResponse s r n)

section
variable (s : State) (r : Request) (rs : Bool) (n : BusWidth)

@[simp] theorem afterAccess_host : (afterAccess s r rs n).host = s.host := rfl
@[simp] theorem afterAccess_dev : (afterAccess s r rs n).dev = s.dev + 1 := rfl
@[simp] theorem afterAccess_trace : (afterAccess s r rs n).trace = s.trace ++ [accessEvent s r rs n] := rfl
@[simp] theorem afterAccess_responses :
    (afterAccess s r rs n).responses = s.responses ++ [accessResponse s r n] := rfl

@[simp] theorem accessEvent_addr : (accessEvent s r rs n).addr = r.addr := rfl

theorem accessResponse_isError : (accessResponse s r n).isError = false := by
  unfold accessResponse; split <;> rfl

end

/-- A bank request passes its checks or fails one of them. -/
theorem bankCheck_cases (bcr : Word) (size : Size) (addr : Word) :
    (∃ c, bankCheck bcr size addr = .error c) ∨ ∃ n, bankCheck bcr size addr = .ok n := by
  cases bankCheck bcr size addr with
  | error c => exact .inl ⟨c, rfl⟩
  | ok n => exact .inr ⟨n, rfl⟩

/-- R120: a bank request with a failing check. -/
theorem bankAccess_of_error {s : State} {r : Request} {c : Fault} (hc : bankCheck s.bcr r.size r.addr = .error c)
    (rs : Bool) : bankAccess r rs s = errorResponse c s := by
  simp only [bankAccess, bankWrite, bankRead, bankReadOf, hc, ite_self]

/-- R36: a bank request whose checks pass is one bus cycle and its response. -/
theorem bankAccess_of_ok {s : State} {r : Request} {n : BusWidth} (hc : bankCheck s.bcr r.size r.addr = .ok n)
    (rs : Bool) : bankAccess r rs s = afterAccess s r rs n := by
  obtain ⟨w, z, a, v⟩ := r
  cases w <;> simp only [bankAccess, bankWrite, bankRead, bankReadOf, hc] <;> rfl

/-! ### Instructions -/

theorem exec_of_bank {i : Instr} (hb : i.isBank = true) (s : State) :
    exec i s = .next (bankAccess i.request i.rsBit s) := by
  cases hw : i.request.write with
  | true => simp only [exec_of_bank_write hb hw, bankAccess, if_pos hw]; rfl
  | false => simp only [exec_of_bank_read hb hw, bankAccess, hw]; rfl

theorem exec_of_bank_error {i : Instr} {s : State} {c : Fault} (hb : i.isBank = true)
    (hc : bankCheck s.bcr i.request.size i.addr = .error c) : exec i s = .next (errorResponse c s) := by
  rw [exec_of_bank hb, bankAccess_of_error (r := i.request) hc]

theorem exec_of_bank_ok {i : Instr} {s : State} {n : BusWidth} (hb : i.isBank = true)
    (hc : bankCheck s.bcr i.request.size i.addr = .ok n) : exec i s = .next (afterAccess s i.request i.rsBit n) := by
  rw [exec_of_bank hb, bankAccess_of_ok (r := i.request) hc]

@[simp] theorem writeReg_cur (s : State) (k : ConfigReg) (v : Word) : (s.writeReg k v).cur = s.cur := by
  cases k <;> rfl

/-- R36: a configuration operation touches neither the bus nor the latch. -/
theorem exec_of_config {i : Instr} (hb : i.isBank = false) (s : State) :
    ∃ t, exec i s = .next t ∧ t.trace = s.trace ∧ t.dev = s.dev ∧ t.cur = s.cur := by
  obtain ⟨-, -, k, e⟩ | ⟨-, -, k, e⟩ | ⟨hb', -⟩ | ⟨hb', -⟩ := exec_shape i s
  · refine ⟨_, e, ?_⟩
    obtain ⟨c, -, e⟩ | ⟨-, e⟩ := configRead_cases k i.addr s <;> simp [e]
  · refine ⟨_, e, ?_⟩
    obtain ⟨c, -, e⟩ | ⟨-, e⟩ := configWrite_cases k i.addr i.wdata s <;> simp [e]
  · simp [hb] at hb'
  · simp [hb] at hb'

@[simp] theorem pinData_width (n : BusWidth) (d : Half) : (pinData n d).width = n := by cases n <;> rfl

/-- Settles O23: an accepted request's state is `afterAccess`; an error response and a configuration operation add no
event. -/
theorem oneCyclePerAcceptedRequest : Obligations.OneCyclePerAcceptedRequest := by
  intro i s _
  constructor
  · intro n hb hc
    exact ⟨_, _, exec_of_bank_ok hb hc, rfl, rfl, rfl, rfl, rfl, pinData_width n _, rfl⟩
  · intro hno
    cases hb : i.isBank with
    | false => exact exec_of_config hb s
    | true =>
      obtain ⟨c, hc⟩ | ⟨n, hc⟩ := bankCheck_cases s.bcr i.request.size i.addr
      · exact ⟨_, exec_of_bank_error hb hc, rfl, rfl, rfl⟩
      · exact absurd hc (hno hb n)

/-! ### Presented requests -/

section
variable {s : State} {r : Request} {rest : List Request} {rs : Bool} (hr : s.Ready) (hh : s.host = r :: rest)
  (ha : decodeAddress s.params r.addr = .bank rs)
include hr hh ha

theorem step_of_bank_error {c : Fault} (hc : bankCheck s.bcr r.size r.addr = .error c) :
    step s = .next (errorResponse c (s.setHost rest)) :=
  (step_of_bank hr hh ha).trans (congrArg _ (bankAccess_of_error (s := s.setHost rest) hc rs))

theorem step_of_bank_ok {n : BusWidth} (hc : bankCheck s.bcr r.size r.addr = .ok n) :
    step s = .next (afterAccess (s.setHost rest) r rs n) :=
  (step_of_bank hr hh ha).trans (congrArg _ (bankAccess_of_ok (s := s.setHost rest) hc rs))

end

/-! ### Aliases -/

/-- R70: of the address the checks look at bit 0 only, and that for a 16-bit access. -/
theorem bankCheck_congr {size : Size} {a b : Word} (bcr : Word)
    (h : size = .b16 → b.getLsbD 0 = a.getLsbD 0) : bankCheck bcr size b = bankCheck bcr size a := by
  have halign : (size = .b16 ∧ b.getLsbD 0 = true) ↔ (size = .b16 ∧ a.getLsbD 0 = true) :=
    and_congr_right fun hz => by rw [h hz]
  simp only [bankCheck, halign]

/-- Settles O25: the same checks pass, and the latch is the same but for the address. -/
theorem windowAddressesAlias : Obligations.WindowAddressesAlias := by
  intro s r rest b rs hr hh ha hb hz
  have hcongr := bankCheck_congr s.bcr hz
  obtain ⟨c, hc⟩ | ⟨n, hc⟩ := bankCheck_cases s.bcr r.size r.addr
  · exact ⟨_, _, step_of_bank_error hr hh ha hc,
      step_of_bank_error (s := { s with host := { r with addr := b } :: rest }) hr rfl hb (hcongr.trans hc),
      rfl, .inl ⟨rfl, rfl⟩⟩
  · exact ⟨_, _, step_of_bank_ok hr hh ha hc,
      step_of_bank_ok (s := { s with host := { r with addr := b } :: rest }) hr rfl hb (hcongr.trans hc),
      rfl, .inr ⟨accessEvent (s.setHost rest) r rs n, rfl, rfl, rfl⟩⟩

/-! ### Reads in a row -/

/-- R53: a bank operation is 8 or 16 bits wide. -/
theorem bank_size {i : Instr} (hb : i.isBank = true) : i.request.size = .b8 ∨ i.request.size = .b16 := by
  cases i <;> simp [Instr.isBank, Instr.opcode] at hb ⊢

/-- On a live bank the checks pass for a byte, and on a 16-bit bus for a halfword at an even address. -/
theorem bankCheck_of_live {s : State} {n : BusWidth} {i : Instr} (hl : Live s n) (hb : i.isBank = true)
    (hz : i.request.size = .b8 ∨ (n = .w16 ∧ i.addr.getLsbD 0 = false)) :
    bankCheck s.bcr i.request.size i.addr = .ok n := by
  obtain h8 | h16 := bank_size hb
  · rw [h8]
    exact bankCheck_b8_of_live hl _
  · obtain ⟨rfl, heven⟩ := hz.resolve_left (by simp [h16])
    rw [h16]
    exact bankCheck_b16_of_live hl heven

theorem pinData_w8 (d : Half) : pinData .w8 d = .d8 (d.extractLsb' 0 8) :=
  congrArg PinData.d8 (BitVec.setWidth_eq_extractLsb' (by decide))

theorem pinData_low (n : BusWidth) (d : Half) : (pinData n d).low = d.extractLsb' 0 8 := by
  cases n <;> exact BitVec.setWidth_eq_extractLsb' (by decide)

/-- R52 (c): the value of a read whose checks pass. -/
theorem readLane_pinData {n : BusWidth} {z : Size} (hz : z = .b8 ∨ n = .w16) (d : Half) :
    readLane z (pinData n d) = if z = .b8 then (d.extractLsb' 0 8).setWidth 32 else d.setWidth 32 := by
  by_cases h8 : z = .b8
  · rw [if_pos h8, h8, readLane, pinData_low]
  · obtain rfl := hz.resolve_left h8
    rw [if_neg h8]
    cases z
    case b8 => exact absurd rfl h8
    all_goals rfl

/-- R80: a read's response is the lane of what the device drives in its present state. -/
theorem accessResponse_of_read {r : Request} (hw : r.write = false) {n : BusWidth} (hz : r.size = .b8 ∨ n = .w16)
    (s : State) :
    accessResponse s r n = .value (if r.size = .b8 then ((Config.deviceDrives s.dev).extractLsb' 0 8).setWidth 32
      else (Config.deviceDrives s.dev).setWidth 32) := by
  simp [accessResponse, hw, readLane_pinData hz]

theorem accessEvent_of_read {r : Request} (hw : r.write = false) (s : State) (rs : Bool) (n : BusWidth) :
    accessEvent s r rs n = ⟨.read, rs, r.addr, pinData n (Config.deviceDrives s.dev), tripleAt s.rtr⟩ := by
  simp only [accessEvent, eventOf, acceptLatch, latchOf, hw]
  rfl

/-- Settles O26: the first read leaves the bank live and the device in its next state, where the second finds it. -/
theorem readsAreNeverMerged : Obligations.ReadsAreNeverMerged := by
  intro s n i j _ hl hx
  obtain ⟨hbi, hwi, hzi⟩ := hx i (by simp)
  obtain ⟨hbj, hwj, hzj⟩ := hx j (by simp)
  have hlt : Live (afterAccess s i.request i.rsBit n) n := hl
  refine ⟨_, _, exec_of_bank_ok hbi (bankCheck_of_live hl hbi hzi),
    exec_of_bank_ok hbj (bankCheck_of_live hlt hbj hzj), rfl, ?_, ?_⟩
  · rw [afterAccess_trace, afterAccess_trace, accessEvent_of_read hwi, accessEvent_of_read hwj, List.append_assoc]
    cases n with
    | w8 => rw [pinData_w8, pinData_w8]; rfl
    | w16 => rfl
  · rw [afterAccess_responses, afterAccess_responses, accessResponse_of_read hwi (hzi.imp_right And.left),
      accessResponse_of_read hwj (hzj.imp_right And.left), List.append_assoc]
    rfl

end Sys2Proof.Machine
end

section
/-! The order of requests: each one served gets one response and at most one event (R40, R41, R99). -/

namespace Sys2Proof.Machine

/-- `t` takes no request and gives no response: the host's list, the responses and the trace are those of `s`. -/
def Undisturbed (s t : State) : Prop := t.host = s.host ∧ t.responses = s.responses ∧ t.trace = s.trace

/-- From `s` to `t` the request `r` is taken off the host's list, with one response and at most one event, its own. -/
def Served (r : Request) (s t : State) : Prop :=
  ∃ x, s.host = r :: t.host ∧ t.responses = s.responses ++ [x] ∧
    (t.trace = s.trace ∨ ∃ e, e.addr = r.addr ∧ t.trace = s.trace ++ [e]) ∧ (x.isError = true → t.trace = s.trace)

theorem served_without_event {r : Request} {s t : State} (x : Response) (hh : s.host = r :: t.host)
    (hx : t.responses = s.responses ++ [x]) (ht : t.trace = s.trace) : Served r s t :=
  ⟨x, hh, hx, .inl ht, fun _ => ht⟩

theorem served_with_event {r : Request} {s t : State} {x : Response} {e : BusEvent} (hh : s.host = r :: t.host)
    (hx : t.responses = s.responses ++ [x]) (hok : x.isError = false) (he : e.addr = r.addr)
    (ht : t.trace = s.trace ++ [e]) : Served r s t :=
  ⟨x, hh, hx, .inr ⟨e, he, ht⟩, fun herr => by simp [hok] at herr⟩

/-- R60: a request to the configuration block is never accepted as a transfer. -/
theorem verdict_of_cfg {p : Params} {bcr : Word} {r : Request} {k : BitVec 2} (h : decodeAddress p r.addr = .cfg k) :
    (∃ c, verdict p bcr r = .error c) ∨ ∃ reg, verdict p bcr r = .config reg := by
  unfold verdict
  rw [h]
  dsimp only
  split
  · exact .inl ⟨_, rfl⟩
  · exact .inr ⟨_, rfl⟩
  · exact .inl ⟨_, rfl⟩

section
variable {s : State} {r : Request} {rest : List Request} (hh : s.host = r :: rest)
include hh

theorem served_idleEdge_of_cfg {k : BitVec 2} (ha : decodeAddress s.params r.addr = .cfg k) :
    Served r s (idleEdge s r rest) := by
  obtain ⟨c, hv⟩ | ⟨reg, hv⟩ := verdict_of_cfg (bcr := s.bcr) ha
  · rw [idleEdge_of_error hv]
    exact served_without_event (.error c) hh rfl rfl
  · cases hw : r.write with
    | true =>
      simp only [idleEdge, hv, if_pos hw]
      cases reg <;> exact served_without_event .written hh rfl rfl
    | false =>
      simp only [idleEdge, hv, hw]
      exact served_without_event (.value (s.readReg reg)) hh rfl rfl

theorem served_afterAccess (rs : Bool) (n : BusWidth) : Served r s (afterAccess (s.setHost rest) r rs n) :=
  served_with_event hh rfl (accessResponse_isError _ r n) (accessEvent_addr _ r rs n) rfl

theorem step_of_bank_served {rs : Bool} (hr : s.Ready) (ha : decodeAddress s.params r.addr = .bank rs) :
    ∃ t, step s = .next t ∧ Served r s t := by
  obtain ⟨c, hc⟩ | ⟨n, hc⟩ := bankCheck_cases s.bcr r.size r.addr
  · exact ⟨_, step_of_bank_error hr hh ha hc, served_without_event (.error c) hh rfl rfl⟩
  · exact ⟨_, step_of_bank_ok hr hh ha hc, served_afterAccess hh rs n⟩

end

section
variable (s : State)

@[simp] theorem enterTurn_host : (enterTurn s).host = s.host := by unfold enterTurn; split <;> rfl
@[simp] theorem enterTurn_responses : (enterTurn s).responses = s.responses := by unfold enterTurn; split <;> rfl
@[simp] theorem enterTurn_trace : (enterTurn s).trace = s.trace := by unfold enterTurn; split <;> rfl

end

theorem undisturbed_addrEdge (s : State) : Undisturbed s (addrEdge s) := by
  unfold addrEdge; split <;> exact ⟨rfl, rfl, rfl⟩

theorem undisturbed_turnEdge (s : State) : Undisturbed s (turnEdge s) := by
  unfold turnEdge; split <;> exact ⟨rfl, rfl, rfl⟩

/-- R94: only the last `DATA` cycle serves its request, and the event is at the address of the latch. -/
theorem dataEdge_cases {s : State} {r : Request} {rest : List Request} (din : Half) (hh : s.host = r :: rest)
    (hold : holds s.cur r = true) : Undisturbed s (dataEdge din s r rest) ∨ Served r s (dataEdge din s r rest) := by
  obtain ⟨-, haddr⟩ := (holds_iff _ _).mp hold
  unfold dataEdge
  split
  · exact .inr (served_with_event (e := eventOf s.cur din)
      (x := if s.cur.write then .written else .value (readLane r.size (pinData s.cur.n din)))
      (by simpa using hh) (by simp) (by split <;> rfl) haddr.symm (by simp))
  · exact .inl ⟨rfl, rfl, rfl⟩

/-- Settles O33: at rest a step serves the presented request, and in the middle of a transfer the last `DATA` cycle
does. -/
theorem strictRequestOrder : Obligations.StrictRequestOrder := by
  intro s t hr ht
  suffices h : Undisturbed s t ∨ ∃ r, Served r s t from h.imp_right fun ⟨r, x, hx⟩ => ⟨r, x, hx⟩
  by_cases hp : s.phase = .idle
  · have hready : s.Ready := ⟨hr, hp⟩
    cases hh : s.host with
    | nil =>
      rw [step_no_request hready hh] at ht
      cases ht
      exact .inl ⟨rfl, rfl, rfl⟩
    | cons r rest =>
      cases ha : decodeAddress s.params r.addr with
      | cfg k =>
        rw [step_of_cfg hready hh ha] at ht
        cases ht
        exact .inr ⟨r, served_idleEdge_of_cfg hh ha⟩
      | bank rs =>
        obtain ⟨u, hu, hs⟩ := step_of_bank_served hh hready ha
        rw [hu] at ht
        cases ht
        exact .inr ⟨r, hs⟩
      | outside =>
        rw [step_of_outside hready hh ha] at ht
        cases ht
  · rw [step_in_transfer hr hp] at ht
    obtain ⟨-, e⟩ | ⟨-, r, rest, hh, hold, e⟩ | ⟨-, e⟩ | ⟨-, -, e⟩ := clockEdge_transfer_cases hr hp
    all_goals rw [e] at ht; cases ht
    · exact .inl (undisturbed_addrEdge s)
    · exact (dataEdge_cases _ hh hold).imp_right fun h => ⟨r, h⟩
    · exact .inl (undisturbed_turnEdge s)

end Sys2Proof.Machine
end

section
/-! The configuration operations by the address of the request (R60 to R66), and the register word of a timing triple
(R68). -/

namespace Sys2Proof.Machine

/-! ### Configuration operations by address -/

section
variable {a : Word}

/-- R60: a 32-bit access to an aligned address of a register passes. -/
theorem cfgCheck_of_aligned (h0 : a.extractLsb' 0 2 = 0#2) (h3 : a.extractLsb' 2 2 ≠ 3#2) : cfgCheck .b32 a = none := by
  rw [cfgCheck_b32, if_neg (not_not_intro h0), if_neg h3]

/-- R60: alignment is looked at before the register number. -/
theorem cfgCheck_of_misaligned (h0 : a.extractLsb' 0 2 ≠ 0#2) : cfgCheck .b32 a = some .align := by
  rw [cfgCheck_b32, if_pos h0]

theorem exec_cfgwrOf_of_aligned (h0 : a.extractLsb' 0 2 = 0#2) (h3 : a.extractLsb' 2 2 ≠ 3#2) (k : ConfigReg) (v : Word)
    (s : State) : exec (cfgwrOf k a v) s = .next (answered (s.writeReg k v) .written) := by
  simp only [exec_cfgwrOf, configWrite, cfgCheck_of_aligned h0 h3]
  rfl

theorem exec_cfgwrOf_of_misaligned (h0 : a.extractLsb' 0 2 ≠ 0#2) (k : ConfigReg) (v : Word) (s : State) :
    exec (cfgwrOf k a v) s = .next (answered s (.error .align)) := by
  simp only [exec_cfgwrOf, configWrite, cfgCheck_of_misaligned h0]
  rfl

theorem exec_cfgrdOf_of_aligned (h0 : a.extractLsb' 0 2 = 0#2) (h3 : a.extractLsb' 2 2 ≠ 3#2) (k : ConfigReg)
    (s : State) : exec (cfgrdOf k a) s = .next (answered s (.value (s.readReg k))) := by
  simp only [exec_cfgrdOf, configRead, cfgCheck_of_aligned h0 h3]
  rfl

theorem exec_cfgrdOf_of_misaligned (h0 : a.extractLsb' 0 2 ≠ 0#2) (k : ConfigReg) (s : State) :
    exec (cfgrdOf k a) s = .next (answered s (.error .align)) := by
  simp only [exec_cfgrdOf, configRead, cfgCheck_of_misaligned h0]
  rfl

end

/-- Settles O14: the write of each register, its address aligned or not. -/
theorem configWritesStoreMaskedValue : Obligations.ConfigWritesStoreMaskedValue := by
  intro s a v _
  constructor
  · intro h0 h3
    have hw := fun k => exec_cfgwrOf_of_aligned h0 h3 k v s
    exact ⟨hw .bcr, hw .rtr, hw .wtr⟩
  · intro h0
    have he := fun k => exec_cfgwrOf_of_misaligned h0 k v s
    simpa using ⟨he .bcr, he .rtr, he .wtr⟩

/-- Settles O15: the read of each register, its address aligned or not. -/
theorem configReadsReturnRegister : Obligations.ConfigReadsReturnRegister := by
  intro s a _
  constructor
  · intro h0 h3
    have hv := fun k => exec_cfgrdOf_of_aligned h0 h3 k s
    exact ⟨hv .bcr, hv .rtr, hv .wtr⟩
  · intro h0
    have he := fun k => exec_cfgrdOf_of_misaligned h0 k s
    simpa using ⟨he .bcr, he .rtr, he .wtr⟩

/-! ### The register word of a timing triple -/

/-- A field moved to its place loses nothing if it ends within the word. -/
theorem toNat_setWidth_shiftLeft {n k : Nat} (x : BitVec n) (h : n + k ≤ 32) :
    (x.setWidth 32 <<< k).toNat = x.toNat <<< k := by
  have hlt : x.toNat <<< k < 2 ^ 32 := by
    calc x.toNat <<< k < 2 ^ n * 2 ^ k := by
          rw [Nat.shiftLeft_eq]; exact Nat.mul_lt_mul_of_pos_right x.isLt (Nat.two_pow_pos k)
      _ = 2 ^ (n + k) := (Nat.pow_add ..).symm
      _ ≤ 2 ^ 32 := Nat.pow_le_pow_right (by decide) h
  rw [BitVec.toNat_shiftLeft, BitVec.toNat_setWidth_of_le (by omega), Nat.mod_eq_of_lt hlt]

section
variable (tp : TimingParameters)

/-- R68 as a number: the three fields lie in disjoint bits, so their `|` is a sum. -/
theorem toNat_timingWord : (timingWord tp).toNat =
    tp.addressSetup % 16 + 2 ^ 8 * (tp.dataSetup % 256) + 2 ^ 16 * (tp.busTurnaround % 16) := by
  have hlow : tp.addressSetup % 16 < 2 ^ 8 := by omega
  have hmid : (tp.dataSetup % 256) <<< 8 + tp.addressSetup % 16 < 2 ^ 16 := by rw [Nat.shiftLeft_eq]; omega
  calc (timingWord tp).toNat
      = (tp.busTurnaround % 16) <<< 16 ||| ((tp.dataSetup % 256) <<< 8 ||| tp.addressSetup % 16) := by
        rw [Nat.or_comm, Nat.or_comm (_ <<< 8), timingWord, BitVec.toNat_or, BitVec.toNat_or,
          toNat_setWidth_shiftLeft _ (by decide), toNat_setWidth_shiftLeft _ (by decide),
          BitVec.toNat_setWidth_of_le (by decide)]
        simp only [BitVec.toNat_ofNat, Nat.reducePow]
    _ = (tp.busTurnaround % 16) <<< 16 + ((tp.dataSetup % 256) <<< 8 + tp.addressSetup % 16) := by
        rw [← Nat.shiftLeft_add_eq_or_of_lt hlow, ← Nat.shiftLeft_add_eq_or_of_lt hmid]
    _ = _ := by simp only [Nat.shiftLeft_eq]; omega

/-- R17, R68: the fields of the word are the counts, each cut to the width of its field. -/
theorem tripleAt_timingWord : tripleAt (timingWord tp) =
    ⟨BitVec.ofNat 4 tp.addressSetup, BitVec.ofNat 8 tp.dataSetup, BitVec.ofNat 4 tp.busTurnaround⟩ := by
  simp only [tripleAt, TimingSet.mk.injEq, ← BitVec.toNat_inj, BitVec.extractLsb'_toNat, toNat_timingWord,
    BitVec.toNat_ofNat, Nat.shiftRight_eq_div_pow]
  omega

/-- R19, R68: the word has no bit outside the fields of a timing register. -/
theorem timingWord_and_regMask : timingWord tp &&& 0x000FFF0F#32 = timingWord tp := by
  have haddset : ∀ x : BitVec 4, x.setWidth 32 &&& 0x000FFF0F#32 = x.setWidth 32 := by decide
  have hdatast : ∀ x : BitVec 8, x.setWidth 32 <<< 8 &&& 0x000FFF0F#32 = x.setWidth 32 <<< 8 := by decide
  have hbusturn : ∀ x : BitVec 4, x.setWidth 32 <<< 16 &&& 0x000FFF0F#32 = x.setWidth 32 <<< 16 := by decide
  simp only [timingWord, BitVec.and_or_distrib_right, haddset, hdatast, hbusturn]

end

/-- Settles O49: the fields and the number of the word, of which only the last needs that the counts fit. -/
theorem timingWordTruncates : Obligations.TimingWordTruncates := by
  intro tp
  refine ⟨?_, ?_, ?_, timingWord_and_regMask tp, ?_⟩
  · rw [tripleAt_timingWord]; exact BitVec.toNat_ofNat ..
  · rw [tripleAt_timingWord]; exact BitVec.toNat_ofNat ..
  · rw [tripleAt_timingWord]; exact BitVec.toNat_ofNat ..
  · rintro ⟨ha, hd, hb⟩
    rw [toNat_timingWord, Nat.mod_eq_of_lt ha, Nat.mod_eq_of_lt hd, Nat.mod_eq_of_lt hb]

end Sys2Proof.Machine
end

section
/-! Bank writes whose checks pass, by the value on the pins (R52 (b), R71 to R74). -/

namespace Sys2Proof.Machine

/-- R70: a write whose checks pass is one write cycle with the data of its lanes. -/
theorem bankWrite_of_ok {s : State} {z : Size} {a : Word} {n : BusWidth} (hc : bankCheck s.bcr z a = .ok n) (rs : Bool)
    (v : Word) : bankWrite z rs a v s = afterWrite s rs n a (laneFill s.params.byteFill z n v)
      (pinData n (laneFill s.params.byteFill z n v)) :=
  bankAccess_of_ok (r := ⟨true, z, a, v⟩) hc rs

theorem bankWrite_b8_of_live {s : State} {n : BusWidth} (hl : Live s n) (rs : Bool) (a v : Word) :
    bankWrite .b8 rs a v s = afterWrite s rs n a (byteOnBus s.params.byteFill n (v.extractLsb' 0 8)).all
      (byteOnBus s.params.byteFill n (v.extractLsb' 0 8)) := by
  obtain ⟨hdout, hpins⟩ := laneFill_b8 s.params.byteFill n v
  rw [bankWrite_of_ok (bankCheck_b8_of_live hl a), hpins, hdout]

theorem bankWrite_b16_of_live {s : State} (hl : Live s .w16) {a : Word} (ha : a.getLsbD 0 = false) (rs : Bool)
    (v : Word) : bankWrite .b16 rs a v s = afterWrite s rs .w16 a (v.extractLsb' 0 16) (.d16 (v.extractLsb' 0 16)) := by
  rw [bankWrite_of_ok (bankCheck_b16_of_live hl ha), laneFill_b16, pinData]

/-- Settles O17: both operations are the 8-bit bank write, each with its own register-select value. -/
theorem byteWritesRunOneCycle : Obligations.ByteWritesRunOneCycle := by
  intro s n addr v _ hl
  exact ⟨congrArg _ (bankWrite_b8_of_live hl false addr v), congrArg _ (bankWrite_b8_of_live hl true addr v)⟩

/-- Settles O18: both operations are the 16-bit bank write, each with its own register-select value. -/
theorem halfwordWritesRunOneCycle : Obligations.HalfwordWritesRunOneCycle := by
  intro s addr v _ hl ha
  exact ⟨congrArg _ (bankWrite_b16_of_live hl ha false v), congrArg _ (bankWrite_b16_of_live hl ha true v)⟩

end Sys2Proof.Machine
end

section
/-! Bank reads whose checks pass, by the value the device drives (R52 (c), R81 to R84). -/

namespace Sys2Proof.Machine

/-- R80: a read whose checks pass is one read cycle, answered with the lane of the pins. -/
theorem bankRead_of_ok {s : State} {z : Size} {a : Word} {n : BusWidth} (hc : bankCheck s.bcr z a = .ok n) (rs : Bool) :
    bankRead z rs a s = afterRead s rs n a (pinData n (Config.deviceDrives s.dev))
      (readLane z (pinData n (Config.deviceDrives s.dev))) :=
  bankAccess_of_ok (r := ⟨false, z, a, 0⟩) hc rs

theorem bankRead_b8_of_live {s : State} {n : BusWidth} (hl : Live s n) (rs : Bool) (a : Word) :
    bankRead .b8 rs a s = afterRead s rs n a (pinData n (Config.deviceDrives s.dev))
      (((Config.deviceDrives s.dev).extractLsb' 0 8).setWidth 32) := by
  rw [bankRead_of_ok (bankCheck_b8_of_live hl a), readLane_pinData (.inl rfl), if_pos rfl]

theorem bankRead_b16_of_live {s : State} (hl : Live s .w16) {a : Word} (ha : a.getLsbD 0 = false) (rs : Bool) :
    bankRead .b16 rs a s = afterRead s rs .w16 a (.d16 (Config.deviceDrives s.dev))
      ((Config.deviceDrives s.dev).setWidth 32) :=
  bankRead_of_ok (bankCheck_b16_of_live hl ha) rs

/-- Settles O19: both operations are the 8-bit bank read, each with its own register-select value. -/
theorem byteReadsRunOneCycle : Obligations.ByteReadsRunOneCycle := by
  intro s n addr _ hl din data
  have hdata : pinData n din = data := by
    cases n with
    | w8 => exact pinData_w8 din
    | w16 => rfl
  rw [← hdata]
  exact ⟨congrArg _ (bankRead_b8_of_live hl false addr), congrArg _ (bankRead_b8_of_live hl true addr)⟩

/-- Settles O20: both operations are the 16-bit bank read, each with its own register-select value. -/
theorem halfwordReadsRunOneCycle : Obligations.HalfwordReadsRunOneCycle := by
  intro s addr _ hl ha
  exact ⟨congrArg _ (bankRead_b16_of_live hl ha false), congrArg _ (bankRead_b16_of_live hl ha true)⟩

end Sys2Proof.Machine
end

section
/-! The pins by phase, and what a clock cycle leaves alone while a transfer runs (R96, R98, R104). -/

namespace Sys2Proof.Machine

/-! ### Frames of a clock cycle -/

@[simp] theorem enterTurn_cur (s : State) : (enterTurn s).cur = s.cur := by unfold enterTurn; split <;> rfl

theorem addrEdge_cur (s : State) : (addrEdge s).cur = s.cur := by unfold addrEdge; split <;> rfl

theorem dataEdge_cur (din : Half) (s : State) (r : Request) (rest : List Request) :
    (dataEdge din s r rest).cur = s.cur := by
  unfold dataEdge
  split
  · simp
  · rfl

theorem turnEdge_cur (s : State) : (turnEdge s).cur = s.cur := by unfold turnEdge; split <;> rfl

/-- R46, R98, R104: a running transfer keeps the parameters, the registers and the latch. -/
theorem clockEdge_in_transfer_frame {s t : State} (hr : s.rst = .over) (hp : s.phase ≠ .idle)
    (h : clockEdge s = .next t) : SameRegisters s t ∧ t.cur = s.cur := by
  obtain ⟨-, rfl⟩ | ⟨-, r, rest, -, rfl⟩ | ⟨-, rfl⟩ := clockEdge_in_transfer hr hp h
  · exact ⟨sameRegisters_addrEdge s, addrEdge_cur s⟩
  · exact ⟨sameRegisters_dataEdge _ s r rest, dataEdge_cur _ s r rest⟩
  · exact ⟨sameRegisters_turnEdge s, turnEdge_cur s⟩

/-- Settles O44: the edge of each phase keeps all of these fields. -/
theorem transferIsUndisturbed : Obligations.TransferIsUndisturbed := by
  intro s t hr hp h
  obtain ⟨⟨hparams, hbcr, hrtr, hwtr⟩, hcur⟩ := clockEdge_in_transfer_frame hr hp h
  exact ⟨hbcr, hrtr, hwtr, hparams, hcur⟩

/-- Settles O28: it is the state `inv_clockEdge` gives. -/
theorem clockEdgeKeepsInvariant : Obligations.ClockEdgeKeepsInvariant := by
  intro s t h ht
  obtain ⟨u, hu, hinv⟩ := inv_clockEdge h
  rw [ht] at hu
  cases hu
  exact hinv

/-! ### Pins -/

/-- R96: what a transfer with the latch `c` drives on the data pins in `ADDR` and `DATA`. -/
def TransferLatch.driven (c : TransferLatch) : Option PinData := if c.write then some (pinData c.n c.dout) else none

theorem TransferLatch.driven_of_write {c : TransferLatch} (h : c.write = true) :
    c.driven = some (pinData c.n c.dout) := if_pos h

theorem TransferLatch.driven_of_read {c : TransferLatch} (h : c.write = false) : c.driven = none := by
  simp [TransferLatch.driven, h]

section
variable {s : State}

theorem pins_at_rest (h : s.phase = .idle ∨ s.phase = .turn) : pins s = pinsAtRest s := by
  obtain h | h := h <;> simp [pins, pinsAtRest, h]

theorem pins_in_addr (h : s.phase = .addr) :
    pins s = { csN := false, rdN := true, wrN := true, rs := s.cur.rs, d := s.cur.driven } := by
  simp [pins, TransferLatch.driven, h]

theorem pins_in_data (h : s.phase = .data) :
    pins s = { csN := false, rdN := s.cur.write, wrN := !s.cur.write, rs := s.cur.rs, d := s.cur.driven } := by
  simp [pins, TransferLatch.driven, h]

end

/-- R96: at most one strobe is active, and only under chip-select. -/
theorem pins_strobes (s : State) : ¬((pins s).rdN = false ∧ (pins s).wrN = false) ∧
    ((pins s).rdN = false ∨ (pins s).wrN = false → (pins s).csN = false) := by
  cases hp : s.phase with
  | idle => simp [pins_at_rest (.inl hp), pinsAtRest]
  | addr => simp [pins_in_addr hp]
  | data => simp [pins_in_data hp]
  | turn => simp [pins_at_rest (.inr hp), pinsAtRest]

/-- The pins are a function of the phase and the latch. -/
theorem pins_congr {s t : State} (hp : t.phase = s.phase) (hc : t.cur = s.cur) : pins t = pins s := by
  simp only [pins, hp, hc]

/-! ### Which edge changes the register-select line -/

theorem acceptEdge_phase (c : TransferLatch) (s : State) :
    (acceptEdge c s).phase = .addr ∨ (acceptEdge c s).phase = .data := by
  unfold acceptEdge
  split
  · exact .inr rfl
  · exact .inl rfl

/-- R91: at the edge of an `IDLE` cycle only acceptance writes the latch. -/
theorem idleEdge_cur_or_phase (s : State) (r : Request) (rest : List Request) :
    (idleEdge s r rest).cur = s.cur ∨ (idleEdge s r rest).phase = .addr ∨ (idleEdge s r rest).phase = .data := by
  unfold idleEdge
  split
  · exact .inl rfl
  · exact .inl rfl
  · split
    · exact .inl (writeReg_cur _ _ _)
    · exact .inl rfl
  · exact .inr (acceptEdge_phase _ s)

/-- R91, R98: a clock cycle keeps the latch unless it is the one that starts a transfer. -/
theorem clockEdge_cur {s t : State} (hr : s.rst = .over) (h : clockEdge s = .next t) :
    t.cur = s.cur ∨ (s.phase = .idle ∧ (t.phase = .addr ∨ t.phase = .data)) := by
  by_cases hp : s.phase = .idle
  · cases hh : s.host with
    | nil =>
      rw [clockEdge_idle_nil hr hp hh] at h
      cases h
      exact .inl rfl
    | cons r rest =>
      rw [clockEdge_idle_cons hr hp hh] at h
      cases h
      exact (idleEdge_cur_or_phase s r rest).imp_right fun ht => ⟨hp, ht⟩
  · exact .inl (clockEdge_in_transfer_frame hr hp h).2

/-- Settles O42: the table row by row; the strobes follow from it, and `RS` changes only with the latch. -/
theorem pinsByPhase : Obligations.PinsByPhase := by
  refine ⟨fun s => ⟨pins_at_rest, ?_, ?_, ?_, ?_, pins_strobes s⟩, ?_, fun _ => rfl⟩
  · intro hp hw
    rw [pins_in_addr hp, TransferLatch.driven_of_write hw]
  · intro hp hw
    rw [pins_in_addr hp, TransferLatch.driven_of_read hw]
  · intro hp hw
    rw [pins_in_data hp, TransferLatch.driven_of_write hw, hw]
    rfl
  · intro hp hw
    rw [pins_in_data hp, TransferLatch.driven_of_read hw, hw]
    rfl
  · intro s t hr h hrs
    exact (clockEdge_cur hr h).resolve_left fun hcur => hrs (congrArg TransferLatch.rs hcur)

end Sys2Proof.Machine
end

section
/-! Requests answered in their own clock cycle: configuration accesses and error responses (R103, R104, R151). -/

namespace Sys2Proof.Machine

/-! ### What becomes of a presented request -/

section
variable {p : Params} {bcr : Word} {r : Request}

theorem verdict_of_cfg_error {k : BitVec 2} {c : Fault} (ha : decodeAddress p r.addr = .cfg k)
    (hc : cfgCheck r.size r.addr = some c) : verdict p bcr r = .error c := by
  simp [verdict, ha, hc]

theorem verdict_of_bank_error {rs : Bool} {c : Fault} (ha : decodeAddress p r.addr = .bank rs)
    (hc : bankCheck bcr r.size r.addr = .error c) : verdict p bcr r = .error c := by
  simp [verdict, ha, hc]

/-- R30: the register number of a configuration address is its bits 3:2. -/
theorem extractLsb'_of_cfg {a : Word} {k : BitVec 2} (ha : decodeAddress p a = .cfg k) : a.extractLsb' 2 2 = k := by
  unfold decodeAddress at ha
  split at ha
  · exact Region.cfg.inj ha
  · split at ha <;> cases ha

/-- R60: the checks leave only the three registers of R14. -/
theorem cfgCheck_none_ne {size : Size} {a : Word} (hc : cfgCheck size a = none) : a.extractLsb' 2 2 ≠ 3#2 := by
  unfold cfgCheck at hc
  split_ifs at hc with _ _ h3
  exact h3

/-- R14: every register number but 3 has a register. -/
theorem regOfNumber_of_ne {k : BitVec 2} (hk : k ≠ 3#2) : ∃ reg, regOfNumber k = some reg := by
  rw [← Option.isSome_iff_exists]
  revert k; decide

/-- R104: a configuration access that passes its checks is one to a register. -/
theorem verdict_of_cfg_ok {k : BitVec 2} (ha : decodeAddress p r.addr = .cfg k) (hc : cfgCheck r.size r.addr = none) :
    ∃ reg, regOfNumber k = some reg ∧ verdict p bcr r = .config reg := by
  obtain ⟨reg, hreg⟩ := regOfNumber_of_ne (extractLsb'_of_cfg ha ▸ cfgCheck_none_ne hc)
  exact ⟨reg, hreg, by simp [verdict, ha, hc, hreg]⟩

end

/-- R104: the edge of a configuration access. -/
theorem idleEdge_of_config {s : State} {r : Request} {reg : ConfigReg} (hv : verdict s.params s.bcr r = .config reg)
    (rest : List Request) : idleEdge s r rest =
      if r.write then answer .written ((s.setHost rest).writeReg reg r.wdata)
      else answer (.value (s.readReg reg)) (s.setHost rest) := by
  simp only [idleEdge, hv]

/-! ### The cycle in which it is presented -/

/-- R23, R120: the response outputs that carry a response. -/
def responseOut : Response → PortOut
  | .written => { ready := true, err := false, rdata := none }
  | .value v => { ready := true, err := false, rdata := some v }
  | .error _ => { ready := true, err := true, rdata := none }

section
variable {s : State} {r : Request} {rest : List Request} (hr : s.Ready) (hh : s.host = r :: rest)
include hr hh

/-- With the sequencer idle the response outputs are those of the presented request. -/
theorem portOut_ready : portOut s = idleOut s r := by
  simp [portOut, portOutOf, hr.1, hr.2, hh]

/-- R103: an error response is given at once, and the edge only takes the request. -/
theorem immediate_error {c : Fault} (hv : verdict s.params s.bcr r = .error c) :
    portOut s = responseOut (.error c) ∧ clockEdge s = .next (errorResponse c (s.setHost rest)) := by
  constructor
  · rw [portOut_ready hr hh, idleOut, hv]
    rfl
  · rw [clockEdge_idle_cons hr.1 hr.2 hh, idleEdge_of_error hv]

/-- R104: a configuration write is answered at once and takes effect at the edge. -/
theorem immediate_write {reg : ConfigReg} (hv : verdict s.params s.bcr r = .config reg) (hw : r.write = true) :
    portOut s = responseOut .written ∧
      clockEdge s = .next (answer .written ((s.setHost rest).writeReg reg r.wdata)) := by
  constructor
  · simp only [portOut_ready hr hh, idleOut, hv, if_pos hw]
    rfl
  · rw [clockEdge_idle_cons hr.1 hr.2 hh, idleEdge_of_config hv, if_pos hw]

/-- R104: a configuration read is answered at once with the register's value. -/
theorem immediate_read {reg : ConfigReg} (hv : verdict s.params s.bcr r = .config reg) (hw : r.write = false) :
    portOut s = responseOut (.value (s.readReg reg)) ∧
      clockEdge s = .next (answer (.value (s.readReg reg)) (s.setHost rest)) := by
  constructor
  · simp only [portOut_ready hr hh, idleOut, hv, hw]
    rfl
  · rw [clockEdge_idle_cons hr.1 hr.2 hh, idleEdge_of_config hv, hw]
    rfl

/-- A request that is neither unseen nor accepted has its response in this cycle, and the outputs show it. -/
theorem immediate_response
    (hv : (∃ c, verdict s.params s.bcr r = .error c) ∨ ∃ reg, verdict s.params s.bcr r = .config reg) :
    ∃ t x, clockEdge s = .next t ∧ t.responses = s.responses ++ [x] ∧ portOut s = responseOut x := by
  obtain ⟨c, hv⟩ | ⟨reg, hv⟩ := hv
  · obtain ⟨hout, hedge⟩ := immediate_error hr hh hv
    exact ⟨_, _, hedge, rfl, hout⟩
  · cases hw : r.write with
    | true =>
      obtain ⟨hout, hedge⟩ := immediate_write hr hh hv hw
      exact ⟨_, _, hedge, by simp, hout⟩
    | false =>
      obtain ⟨hout, hedge⟩ := immediate_read hr hh hv hw
      exact ⟨_, _, hedge, rfl, hout⟩

end

/-- Settles O36: the check that fails is the verdict, and an error response moves nothing but the host. -/
theorem errorResponseAtClockLevel : Obligations.ErrorResponseAtClockLevel := by
  intro s r rest c hr hh hfail
  have hv : verdict s.params s.bcr r = .error c := by
    obtain ⟨k, ha, hc⟩ | ⟨rs, ha, hc⟩ := hfail
    · exact verdict_of_cfg_error ha hc
    · exact verdict_of_bank_error ha hc
  obtain ⟨hout, hedge⟩ := immediate_error hr hh hv
  exact ⟨hout, _, hedge, rfl, hr, rfl⟩

/-- Settles O37: the access passes its checks at a register of R14; outside both regions nothing is seen. -/
theorem configAccessAtClockLevel : Obligations.ConfigAccessAtClockLevel := by
  refine ⟨fun s r rest hr hh => ⟨?_, ?_⟩, ?_⟩
  · intro k ha hc
    obtain ⟨reg, hreg, hv⟩ := verdict_of_cfg_ok (bcr := s.bcr) ha hc
    refine ⟨reg, hreg, ?_⟩
    cases hw : r.write with
    | true =>
      obtain ⟨hout, hedge⟩ := immediate_write hr hh hv hw
      refine ⟨hout, _, hedge, pins_congr (writeReg_phase _ _ _) (writeReg_cur _ _ _), ?_⟩
      cases reg <;> rfl
    | false =>
      obtain ⟨hout, hedge⟩ := immediate_read hr hh hv hw
      exact ⟨hout, _, hedge, rfl, rfl⟩
  · intro ha
    have hv : verdict s.params s.bcr r = .unseen := verdict_of_outside ha
    refine ⟨?_, s.advance 1, ?_, rfl⟩
    · rw [portOut_ready hr hh, idleOut, hv]
      rfl
    · rw [clockEdge_idle_cons hr.1 hr.2 hh, idleEdge, hv]
  · intro s t hr hp h
    obtain ⟨⟨-, hbcr, hrtr, hwtr⟩, -⟩ := clockEdge_in_transfer_frame hr hp h
    exact ⟨hbcr, hrtr, hwtr⟩

/-- Settles O38: a configuration request and a failing bank request have the same edge at both levels, and the outputs
carry the response that the edge logs. -/
theorem immediateAnswersTakeOneCycle : Obligations.ImmediateAnswersTakeOneCycle := by
  intro s r rest hr hh hin hfail
  have both : clockEdge s = step s ∧
      ((∃ c, verdict s.params s.bcr r = .error c) ∨ ∃ reg, verdict s.params s.bcr r = .config reg) := by
    cases ha : decodeAddress s.params r.addr with
    | cfg k => exact ⟨(clockEdge_idle_cons hr.1 hr.2 hh).trans (step_of_cfg hr hh ha).symm, verdict_of_cfg ha⟩
    | bank rs =>
      obtain ⟨c, hc⟩ | ⟨n, hc⟩ := bankCheck_cases s.bcr r.size r.addr
      · have hv : verdict s.params s.bcr r = .error c := verdict_of_bank_error ha hc
        exact ⟨(immediate_error hr hh hv).2.trans (step_of_bank_error hr hh ha hc).symm, .inl ⟨c, hv⟩⟩
      · exact absurd hc (hfail rs ha n)
    | outside => exact absurd ha hin
  obtain ⟨hlevels, hv⟩ := both
  obtain ⟨t, x, hedge, hx, hout⟩ := immediate_response hr hh hv
  rw [hlevels] at hedge
  rw [hout]
  refine ⟨hlevels, ?_, t, x, hedge, hx, ?_, ?_⟩ <;> cases x <;> rfl

end Sys2Proof.Machine
end

section
/-! An accepted transfer at the clock level, cycle by cycle (R91 to R102): its schedule, its response, its pins, and the
one transaction it refines. -/

namespace Sys2Proof.Machine

/-! ### Acceptance -/

/-- R52 (b): the lines of the bus for a write of the given size whose checks pass. -/
def busLines (fill : ByteFill) (size : Size) (n : BusWidth) (v : Word) : PinData :=
  match size with
  | .b8 => byteOnBus fill n (v.extractLsb' 0 8)
  | _ => .d16 (v.extractLsb' 0 16)

/-- R70: a bank request whose checks pass is a byte, or a halfword on a 16-bit bus. -/
theorem size_of_bankCheck_ok {bcr : Word} {size : Size} {a : Word} {n : BusWidth} (hc : bankCheck bcr size a = .ok n) :
    size = .b8 ∨ size = .b16 ∧ n = .w16 :=
  ((bankCheck_ok_iff bcr size a n).mp hc).1.imp_right fun ⟨hz, _, hn⟩ => ⟨hz, hn⟩

/-- R52 (b): the assembled data of an accepted write, as `dout` and as pins. -/
theorem laneFill_of_bankCheck_ok {bcr : Word} {size : Size} {a : Word} {n : BusWidth}
    (hc : bankCheck bcr size a = .ok n) (fill : ByteFill) (v : Word) :
    laneFill fill size n v = (busLines fill size n v).all ∧
      pinData n (laneFill fill size n v) = busLines fill size n v := by
  obtain rfl | ⟨rfl, rfl⟩ := size_of_bankCheck_ok hc
  · exact laneFill_b8 fill n v
  · rw [laneFill_b16]
    exact ⟨rfl, rfl⟩

/-- R92: what an accepted request drives on the data pins. -/
theorem driven_acceptLatch {s : State} {r : Request} {n : BusWidth} (hc : bankCheck s.bcr r.size r.addr = .ok n)
    (rs : Bool) : (acceptLatch s r rs n).driven =
      if r.write then some (busLines s.params.byteFill r.size n r.wdata) else none := by
  cases hw : r.write with
  | true =>
    rw [TransferLatch.driven_of_write hw, if_pos rfl, ← (laneFill_of_bankCheck_ok hc _ _).2]
    simp only [acceptLatch, latchOf, hw, if_true]
  | false =>
    rw [TransferLatch.driven_of_read hw]
    rfl

/-- The first count of the `ADDR` phase (R91). -/
theorem setWidth_sub_one_eq_ofNat {x : BitVec 4} (hx : x ≠ 0) : x.setWidth 8 - 1 = BitVec.ofNat 8 (x.toNat - 1) := by
  revert x; decide

/-- R91: the fields that the accepting edge writes. -/
theorem acceptEdge_eq (c : TransferLatch) (s : State) : acceptEdge c s = { s with
    cur := c
    phase := if c.t.addset = 0 then .data else .addr
    cnt := if c.t.addset = 0 then c.t.datast else BitVec.ofNat 8 (c.t.addset.toNat - 1) } := by
  by_cases h0 : c.t.addset = 0
  · simp only [acceptEdge, if_pos h0]
    rfl
  · simp only [acceptEdge, if_neg h0, ← setWidth_sub_one_eq_ofNat h0]
    rfl

/-- R91: an accepted request has no response in its accept cycle. -/
theorem portOut_of_accept {s : State} {r : Request} {rest : List Request} {rs : Bool} {n : BusWidth} (hr : s.Ready)
    (hh : s.host = r :: rest) (hv : verdict s.params s.bcr r = .accept rs n) : portOut s = .quiet := by
  rw [portOut_ready hr hh, idleOut, hv]

/-- Settles O45: the verdict is acceptance, whose edge writes the latch with the data of the lanes. -/
theorem acceptanceLatchesRequest : Obligations.AcceptanceLatchesRequest := by
  intro s r rest rs n hr hh ha hc t dout
  have hv : verdict s.params s.bcr r = .accept rs n := verdict_of_bank ha hc
  have hdout : (acceptLatch s r rs n).dout = dout := by
    obtain ⟨hlane, -⟩ := laneFill_of_bankCheck_ok hc s.params.byteFill r.wdata
    simp only [acceptLatch, latchOf, hlane, dout, busLines]
    cases r.size <;> rfl
  have hlatch : acceptLatch s r rs n = ⟨r.write, rs, n, dout, r.addr, t⟩ := hdout ▸ rfl
  refine ⟨?_, pins_at_rest (.inl hr.2), _, clockEdge_idle_cons hr.1 hr.2 hh, ?_⟩
  · rw [portOut_of_accept hr hh hv]
    rfl
  · rw [idleEdge_of_accept hv, acceptEdge_eq, hlatch]
    rfl

/-! ### The cycles of a transfer -/

/-- R97: the state `u` of cycle `k` of the transfer that the request `r` starts in the state `s` of cycle 0, with the
timing set `t`, one case per phase. -/
inductive TransferCycle (s : State) (r : Request) (rest : List Request) (rs : Bool) (n : BusWidth) (t : TimingSet)
    (k : Nat) (u : State) : Prop
  | accept (at_start : k = 0) (same : u = s)
  | addr (first : 1 ≤ k) (last : k ≤ t.addset.toNat) (phase : u.phase = .addr) (cur : u.cur = acceptLatch s r rs n)
  | data (first : t.addset.toNat + 1 ≤ k) (last : k ≤ t.addset.toNat + t.datast.toNat + 1) (phase : u.phase = .data)
      (cur : u.cur = acceptLatch s r rs n) (counted : u.cnt = 0 ↔ k = t.addset.toNat + t.datast.toNat + 1)
      (running : u.rst = .over) (host : u.host = r :: rest) (dev : u.dev = s.dev)
  | turn (first : t.addset.toNat + t.datast.toNat + 2 ≤ k)
      (last : k ≤ t.addset.toNat + t.datast.toNat + 1 + t.busturn.toNat) (phase : u.phase = .turn)
      (cur : u.cur = acceptLatch s r rs n)
  | done (at_end : k = t.addset.toNat + t.datast.toNat + 2 + t.busturn.toNat) (phase : u.phase = .idle)
      (cur : u.cur = acceptLatch s r rs n)

theorem ofNat8_eq_zero_iff {a : Nat} (h : a < 256) : BitVec.ofNat 8 a = 0 ↔ a = 0 := by
  cases a with
  | zero => simp
  | succ a => simpa using ofNat8_ne h

section
variable {s : State} {r : Request} {rest : List Request} {rs : Bool} {n : BusWidth} {t : TimingSet} {k : Nat}

/-- R97: every cycle from acceptance to the end of the period is one of the transfer's. -/
theorem transferCycle_of_run (hr : s.Ready) (hh : s.host = r :: rest) (hv : verdict s.params s.bcr r = .accept rs n)
    (ht : s.timingFor r.write = t) (hk : k ≤ t.addset.toNat + t.datast.toNat + 2 + t.busturn.toNat) :
    ∃ u, clockRun k s = .next u ∧ TransferCycle s r rest rs n t k u := by
  have hperiod : t.period = t.addset.toNat + t.datast.toNat + 2 + t.busturn.toNat := rfl
  have hlatency : t.latency = t.addset.toNat + t.datast.toNat + 2 := rfl
  have hS := t.datast.isLt
  by_cases h0 : k = 0
  · exact ⟨s, h0 ▸ clockRun_zero s, .accept h0 rfl⟩
  by_cases hA : k ≤ t.addset.toNat
  · exact ⟨_, transfer_addr hr hh hv k (by omega) (ht ▸ hA), .addr (by omega) hA rfl rfl⟩
  by_cases hD : k ≤ t.addset.toNat + t.datast.toNat + 1
  · have hrun := transfer_data hr hh hv k (by rw [ht]; omega) (ht ▸ hD)
    rw [ht] at hrun
    exact ⟨_, hrun, .data (by omega) hD rfl rfl ((ofNat8_eq_zero_iff (by omega)).trans (by omega)) hr.1 hh rfl⟩
  have hrun := transfer_turn hr hh hv k (by rw [ht]; omega) (by rw [ht]; omega)
  rw [ht] at hrun
  by_cases hT : k < t.period
  · exact ⟨_, hrun, .turn (by omega) (by omega) (if_pos hT) rfl⟩
  · exact ⟨_, hrun, .done (by omega) (if_neg hT) rfl⟩


/-- R97: the phase of a cycle by its number. -/
theorem TransferCycle.phase_schedule {u : State} (h : TransferCycle s r rest rs n t k u) (hp : s.phase = .idle) :
    (u.phase = .idle ↔ k = 0 ∨ k = t.addset.toNat + t.datast.toNat + 2 + t.busturn.toNat) ∧
    (u.phase = .addr ↔ 1 ≤ k ∧ k ≤ t.addset.toNat) ∧
    (u.phase = .data ↔ t.addset.toNat + 1 ≤ k ∧ k ≤ t.addset.toNat + t.datast.toNat + 1) ∧
    (u.phase = .turn ↔ t.addset.toNat + t.datast.toNat + 2 ≤ k ∧
      k ≤ t.addset.toNat + t.datast.toNat + 1 + t.busturn.toNat) := by
  cases h with
  | accept at_start same => simp [same, hp]; omega
  | addr first last phase cur => simp [phase]; omega
  | data first last phase cur counted running host dev => simp [phase]; omega
  | turn first last phase cur => simp [phase]; omega
  | done at_end phase cur => simp [phase]; omega

/-! ### The response of a transfer -/

theorem portOut_in_addr {u : State} (hp : u.phase = .addr) : portOut u = .quiet := by
  simp [portOut, portOutOf, hp]

theorem portOut_in_turn {u : State} (hp : u.phase = .turn) : portOut u = .quiet := by
  simp [portOut, portOutOf, hp]

/-- R94: the response outputs in a `DATA` cycle with the request held. -/
theorem portOut_in_data {u : State} (hr : u.rst = .over) (hp : u.phase = .data) (hh : u.host = r :: rest) :
    portOut u = if u.cnt = 0 then
      responseOut (if u.cur.write then .written
        else .value (readLane r.size (pinData u.cur.n (Config.deviceDrives u.dev))))
      else .quiet := by
  cases hw : u.cur.write <;> simp [portOut, portOutOf, responseOut, hr, hp, hh, hw]

/-- R94, R99: the response of the transfer comes in its last `DATA` cycle and in no other cycle of the period. -/
theorem TransferCycle.portOut_eq {u : State} (h : TransferCycle s r rest rs n t k u) (hr : s.Ready)
    (hh : s.host = r :: rest) (hv : verdict s.params s.bcr r = .accept rs n)
    (hk : k < t.addset.toNat + t.datast.toNat + 2 + t.busturn.toNat) :
    portOut u = if k = t.addset.toNat + t.datast.toNat + 1 then responseOut (accessResponse s r n) else .quiet := by
  cases h with
  | accept at_start same => rw [same, portOut_of_accept hr hh hv, if_neg (by omega)]
  | addr first last phase cur => rw [portOut_in_addr phase, if_neg (by omega)]
  | data first last phase cur counted running host dev =>
    rw [portOut_in_data running phase host, cur, dev]
    exact if_congr counted rfl rfl
  | turn first last phase cur => rw [portOut_in_turn phase, if_neg (by omega)]
  | done at_end phase cur => omega

theorem responseOut_ready (x : Response) : (responseOut x).ready = true := by cases x <;> rfl

/-- R94, R80: the outputs of a response without error, by the direction of its request. -/
theorem responseOut_accessResponse (hz : r.size = .b8 ∨ n = .w16) : responseOut (accessResponse s r n) =
    { ready := true, err := false,
      rdata := if r.write then none
        else some (if r.size = .b8 then ((Config.deviceDrives s.dev).extractLsb' 0 8).setWidth 32
          else (Config.deviceDrives s.dev).setWidth 32) } := by
  cases hw : r.write with
  | true => simp [accessResponse, hw, responseOut]
  | false => rw [accessResponse_of_read hw hz]; rfl

/-! ### The pins of a transfer -/

/-- R92, R93, R96: the pins of each cycle after the accept cycle. -/
theorem TransferCycle.pins_eq {u : State} (h : TransferCycle s r rest rs n t k u) (hk : 1 ≤ k) :
    pins u = if k ≤ t.addset.toNat + t.datast.toNat + 1 then
        { csN := false, rs := rs, wrN := !(r.write && decide (t.addset.toNat < k)),
          rdN := !(!r.write && decide (t.addset.toNat < k)), d := (acceptLatch s r rs n).driven }
      else { csN := true, rdN := true, wrN := true, rs := rs, d := none } := by
  have hwrite : (acceptLatch s r rs n).write = r.write := rfl
  have hrs : (acceptLatch s r rs n).rs = rs := rfl
  cases h with
  | accept at_start same => omega
  | addr first last phase cur =>
    rw [pins_in_addr phase, cur, hrs, if_pos (by omega), decide_eq_false (by omega)]
    simp
  | data first last phase cur counted running host dev =>
    rw [pins_in_data phase, cur, hrs, hwrite, if_pos last, decide_eq_true (by omega)]
    simp
  | turn first last phase cur => rw [pins_at_rest (.inr phase), pinsAtRest, cur, if_neg (by omega)]; rfl
  | done at_end phase cur => rw [pins_at_rest (.inl phase), pinsAtRest, cur, if_neg (by omega)]; rfl

end

/-- Settles O39: each cycle of the period has the phase and the response outputs of its number. -/
theorem phaseSchedule : Obligations.PhaseSchedule := by
  intro s r rest rs n hr hh ha hc t A S B k hk
  have hv : verdict s.params s.bcr r = .accept rs n := verdict_of_bank ha hc
  obtain ⟨u, hrun, hcycle⟩ := transferCycle_of_run hr hh hv (t := t) rfl hk
  obtain ⟨hidle, haddr, hdata, hturn⟩ := hcycle.phase_schedule hr.2
  refine ⟨u, hrun, hidle, haddr, hdata, hturn, fun hlt => ?_⟩
  rw [hcycle.portOut_eq hr hh hv hlt]
  split
  · next hlast => exact iff_of_true (responseOut_ready _) hlast
  · next hlast => exact iff_of_false Bool.false_ne_true hlast

/-- Settles O40: the one response of the period is the access's, whose value is the lane of what the device drives. -/
theorem responseInLastDataCycle : Obligations.ResponseInLastDataCycle := by
  intro s r rest rs n hr hh ha hc t k hk
  have hv : verdict s.params s.bcr r = .accept rs n := verdict_of_bank ha hc
  obtain ⟨u, hrun, hcycle⟩ := transferCycle_of_run hr hh hv (t := t) rfl hk.le
  refine ⟨u, hrun, ?_⟩
  rw [hcycle.portOut_eq hr hh hv hk,
    responseOut_accessResponse ((size_of_bankCheck_ok hc).imp_right And.right)]
  rfl

/-- Settles O41: the pins of each cycle, with the assembled data of a write on the lines of the bus. -/
theorem pinWaveform : Obligations.PinWaveform := by
  intro s r rest rs n hr hh ha hc t k h1 hk
  obtain ⟨u, hrun, hcycle⟩ := transferCycle_of_run hr hh (verdict_of_bank ha hc) (t := t) rfl hk
  refine ⟨u, hrun, ?_⟩
  rw [hcycle.pins_eq h1, driven_acceptLatch hc]
  rfl

/-! ### Refinement -/

/-- R97, R100: run for the whole period, the clock level ends in the state of the one transaction. -/
theorem clockRun_period {s : State} {r : Request} {rest : List Request} {rs : Bool} {n : BusWidth} (hr : s.Ready)
    (hh : s.host = r :: rest) (hv : verdict s.params s.bcr r = .accept rs n) :
    clockRun (s.timingFor r.write).period s = .next (afterAccess (s.setHost rest) r rs n) := by
  have hle : (s.timingFor r.write).latency ≤ (s.timingFor r.write).period := Nat.le_add_right _ _
  rw [transfer_turn hr hh hv _ hle le_rfl, if_neg (lt_irrefl _), Nat.sub_right_comm, Nat.sub_self, Nat.zero_sub]
  rfl

/-- Settles O35: both levels end in the state after the access. -/
theorem clockLevelRefinesTransaction : Obligations.ClockLevelRefinesTransaction := by
  intro s r rest i rs n hr hh ha hc hi t
  have hserve : step s = exec i (s.setHost rest) := by rw [step_serve hr hh, serve, hi]
  calc clockRun t.period s
      = .next (afterAccess (s.setHost rest) r rs n) := clockRun_period hr hh (verdict_of_bank ha hc)
    _ = step s := (step_of_bank_ok hr hh ha hc).symm
    _ = exec i (s.setHost rest) := hserve

/-! ### The gap after a transfer -/

/-- `u` is at rest, in `IDLE` or `TURN`, with the latch of `s`. -/
def RestsLike (s u : State) : Prop := (u.phase = .idle ∨ u.phase = .turn) ∧ u.cur = s.cur

theorem pins_of_restsLike {s u : State} (h : RestsLike s u) : pins u = pinsAtRest s := by
  obtain ⟨hphase, hcur⟩ := h
  rw [pins_at_rest hphase, pinsAtRest, hcur]
  rfl

/-- R95: `TURN` is followed by an `IDLE` cycle. -/
theorem clockRun_turn_rests {s : State} (hr : s.rst = .over) (hp : s.phase = .turn) {k : Nat}
    (hk : k ≤ s.cnt.toNat + 1) : ∃ u, clockRun k s = .next u ∧ RestsLike s u := by
  by_cases hlast : k ≤ s.cnt.toNat
  · exact ⟨_, clockRun_turn hr hp k hlast, .inr hp, rfl⟩
  · obtain rfl : k = s.cnt.toNat + 1 := by omega
    rw [clockRun_add 1 (clockRun_turn hr hp s.cnt.toNat le_rfl)]
    refine ⟨_, clockRun_succ_of (clockEdge_turn hr hp), .inl ?_, turnEdge_cur _⟩
    simp [turnEdge]

/-- R94, R95, R102: from the edge that ends `DATA` on, `BUSTURN` more cycles and the first one at rest. -/
theorem clockRun_enterTurn_rests {s : State} (hr : s.rst = .over) {k : Nat} (hk : k ≤ s.cur.t.busturn.toNat) :
    ∃ u, clockRun k ((enterTurn s).advance 1) = .next u ∧ RestsLike s u := by
  by_cases hb : s.cur.t.busturn = 0
  · obtain rfl : k = 0 := by simpa [hb] using hk
    exact ⟨_, clockRun_zero _, .inl (by rw [enterTurn_of_eq hb]; rfl), enterTurn_cur s⟩
  · rw [enterTurn_of_ne hb]
    obtain ⟨u, hrun, hrest⟩ := clockRun_turn_rests (k := k)
      (s := (s.setPhase .turn (s.cur.t.busturn.setWidth 8 - 1)).advance 1) hr rfl (by
        rw [setWidth_sub_one_eq_ofNat hb]
        simp
        omega)
    exact ⟨u, hrun, hrest⟩

/-- R94: the edge of the last `DATA` cycle, up to what does not matter for the phases after it. -/
theorem dataEdge_of_last {s : State} (hc : s.cnt = 0) (din : Half) (r : Request) (rest : List Request) :
    ∃ u, dataEdge din s r rest = (enterTurn u).advance 1 ∧ u.rst = s.rst ∧ u.cur = s.cur :=
  ⟨_, if_pos hc, rfl, rfl⟩

/-- Settles O43: the edge of the last `DATA` cycle enters the turnaround, and the latch is kept through it. -/
theorem idleGapBetweenTransfers : Obligations.IdleGapBetweenTransfers := by
  intro s r rest hr hp hc hh hw ha k h1 hk
  obtain ⟨j, rfl⟩ : ∃ j, k = j + 1 := ⟨k - 1, by omega⟩
  have hedge := clockEdge_data hr hp hh ((holds_iff _ _).mpr ⟨hw, ha⟩)
  obtain ⟨v, hv, hrst, hcur⟩ := dataEdge_of_last hc (Config.deviceDrives s.dev) r rest
  obtain ⟨u, hrun, hrest⟩ := clockRun_enterTurn_rests (s := v) (k := j) (hrst.trans hr) (by rw [hcur]; omega)
  refine ⟨u, ?_, ?_⟩
  · rw [clockRun_succ_of hedge, hv, hrun]
  · rw [pins_of_restsLike hrest, pinsAtRest, hcur]

end Sys2Proof.Machine
end

section
/-! What the adapter's expansions do as runs (`44_adapter.md` R110 to R116): each instruction is one step of the machine. -/

namespace Sys2Proof

/-! ### The addresses the adapter uses -/

theorem cfgBase_aligned {p : Params} (hv : p.Valid) : p.cfgBase.toNat % 16 = 0 := by
  obtain ⟨-, -, ⟨hbase, -⟩, -⟩ := hv
  exact hbase

/-- R14, R5: a register's address does not carry out of the block. -/
theorem configAddress_toNat {p : Params} (hv : p.Valid) (k : BitVec 2) :
    (configAddress p k).toNat = p.cfgBase.toNat + 4 * k.toNat := by
  obtain ⟨-, -, -, hcfg, -⟩ := hv
  have hk := k.isLt
  simp only [configAddress, BitVec.toNat_add, BitVec.toNat_shiftLeft, BitVec.toNat_setWidth, Nat.shiftLeft_eq]
  omega

theorem configAddress_aligned {p : Params} (hv : p.Valid) (k : BitVec 2) :
    (configAddress p k).extractLsb' 0 2 = 0#2 := by
  have hbase := cfgBase_aligned hv
  apply BitVec.eq_of_toNat_eq
  simp only [BitVec.extractLsb'_toNat, configAddress_toNat hv, Nat.shiftRight_zero, BitVec.toNat_ofNat]
  omega

theorem configAddress_number {p : Params} (hv : p.Valid) (k : BitVec 2) :
    (configAddress p k).extractLsb' 2 2 = k := by
  have hbase := cfgBase_aligned hv
  have hk := k.isLt
  apply BitVec.eq_of_toNat_eq
  rw [extractLsb'_2_2, configAddress_toNat hv]
  omega

/-- R14, R30: the address of register number `k` is decoded to it. -/
theorem decodeAddress_configAddress {p : Params} (hv : p.Valid) (k : BitVec 2) :
    decodeAddress p (configAddress p k) = .cfg k := by
  have hbase := cfgBase_aligned hv
  have hk := k.isLt
  have hblock : configAddress p k >>> 4 = p.cfgBase >>> 4 := by
    rw [ushiftRight_eq_iff_range _ _ 4 hbase, configAddress_toNat hv]
    omega
  rw [decodeAddress, if_pos hblock, configAddress_number hv]

/-- R31: the decoder's answer at the command address. -/
theorem decodeAddress_commandAddress {p : Params} (hv : p.Valid) : decodeAddress p (commandAddress p) = .bank false := by
  obtain ⟨-, -, -, -, -, -, hcmd, -⟩ := commandAndDataAddress p hv
  exact hcmd

/-- R31: the decoder's answer at the data address. -/
theorem decodeAddress_dataAddress {p : Params} (hv : p.Valid) : decodeAddress p (dataAddress p) = .bank true := by
  obtain ⟨-, -, -, -, -, -, -, hdat⟩ := commandAndDataAddress p hv
  exact hdat

/-- R5: the window is at least two bytes long, so its base is even. -/
theorem commandAddress_even {p : Params} (hv : p.Valid) : (commandAddress p).getLsbD 0 = false :=
  bankBase_getLsbD hv (Nat.zero_lt_of_lt hv.2.1.1)

/-- R5 (e): with register-select above bit 0 the data address is even too. -/
theorem dataAddress_even {p : Params} (hv : p.Valid) (h16 : p.Reaches16) : (dataAddress p).getLsbD 0 = false := by
  have hrs : 0 ≠ p.rsBit := (Nat.pos_iff_ne_zero.mp h16).symm
  rw [dataAddress_getLsbD hv, bankBase_getLsbD hv (Nat.zero_lt_of_lt hv.2.1.1), decide_eq_false hrs]
  rfl

end Sys2Proof

namespace Sys2Proof.Machine

/-! ### The requests of the expansions -/

section
variable (p : Params)

theorem requests_writeCommand (b : Byte) :
    (writeCommand p b).map Instr.request = [⟨true, .b8, commandAddress p, b.setWidth 32⟩] := by
  simp [writeCommand]

theorem requests_writeData_w8 (v : Half) :
    (writeData p .w8 v).map Instr.request = [⟨true, .b8, dataAddress p, (v.setWidth 8).setWidth 32⟩] := by
  simp [writeData]

theorem requests_writeData_w16 (v : Half) :
    (writeData p .w16 v).map Instr.request = [⟨true, .b16, dataAddress p, v.setWidth 32⟩] := by
  simp [writeData]

theorem requests_readData_w8 : (readData p .w8).map Instr.request = [⟨false, .b8, dataAddress p, 0⟩] := by
  simp [readData]

theorem requests_readData_w16 : (readData p .w16).map Instr.request = [⟨false, .b16, dataAddress p, 0⟩] := by
  simp [readData]

theorem requests_initializer (rtp wtp : TimingParameters) (n : BusWidth) :
    (initializer p rtp wtp n).map Instr.request =
      [⟨true, .b32, configAddress p 1, timingWord rtp⟩, ⟨true, .b32, configAddress p 2, timingWord wtp⟩,
        ⟨true, .b32, configAddress p 0, liveBcr n⟩] := by
  simp [initializer]

end

/-! ### One instruction, one step -/

section
variable (fill : ByteFill) (n : BusWidth) (v : Word)

@[simp] theorem busLines_b8 : busLines fill .b8 n v = byteOnBus fill n (v.extractLsb' 0 8) := rfl
@[simp] theorem busLines_b16 : busLines fill .b16 n v = .d16 (v.extractLsb' 0 16) := rfl

end

section
variable {s : State} {r : Request} {rest : List Request}

/-- R14, R60 to R63: a write to the address of a register stores the value under its mask. -/
theorem step_of_cfgwr {reg : ConfigReg} {k : BitVec 2} {v : Word} (hr : s.Ready) (hv : s.params.Valid)
    (hk : regOfNumber k = some reg) (hh : s.host = ⟨true, .b32, configAddress s.params k, v⟩ :: rest) :
    step s = .next (answered ((s.setHost rest).writeReg reg v) .written) := by
  have ha := decodeAddress_configAddress hv k
  have hk3 : k ≠ 3#2 := by rintro rfl; cases hk
  have hc := cfgCheck_of_aligned (configAddress_aligned hv k) (by rwa [configAddress_number hv])
  have hverdict : verdict s.params s.bcr ⟨true, .b32, configAddress s.params k, v⟩ = .config reg := by
    simp only [verdict, ha, hc, hk]
  rw [step_of_cfg hr hh ha, idleEdge_of_config hverdict]
  rfl

/-- R70, R52 (b): a presented bank write whose checks pass. -/
theorem step_of_bank_write {rs : Bool} {n : BusWidth} (hr : s.Ready) (hh : s.host = r :: rest)
    (ha : decodeAddress s.params r.addr = .bank rs) (hw : r.write = true)
    (hc : bankCheck s.bcr r.size r.addr = .ok n) :
    step s = .next (afterWrite (s.setHost rest) rs n r.addr (busLines s.params.byteFill r.size n r.wdata).all
      (busLines s.params.byteFill r.size n r.wdata)) := by
  obtain ⟨hdout, hpins⟩ := laneFill_of_bankCheck_ok hc s.params.byteFill r.wdata
  rw [step_of_bank hr hh ha, if_pos hw, bankWrite_of_ok (s := s.setHost rest) hc, State.setHost_params, hpins, hdout]

/-- R80, R52 (c): a presented bank read whose checks pass. -/
theorem step_of_bank_read {rs : Bool} {n : BusWidth} (hr : s.Ready) (hh : s.host = r :: rest)
    (ha : decodeAddress s.params r.addr = .bank rs) (hw : r.write = false)
    (hc : bankCheck s.bcr r.size r.addr = .ok n) :
    step s = .next (afterRead (s.setHost rest) rs n r.addr (pinData n (Config.deviceDrives s.dev))
      (readLane r.size (pinData n (Config.deviceDrives s.dev)))) := by
  rw [step_of_bank hr hh ha, hw, if_neg Bool.false_ne_true, bankRead_of_ok (s := s.setHost rest) hc]
  rfl

end

theorem runSteps_succ_of {s t : State} (h : step s = .next t) (k : Nat) : runSteps (k + 1) s = runSteps k t := by
  simp only [runSteps, h]

/-! ### The initializer -/

/-- R116: the `BCR` word of a live bank has no bit outside the mask of R19. -/
theorem liveBcr_and_regMask (n : BusWidth) : liveBcr n &&& 0x0000003F#32 = liveBcr n := by cases n <;> decide

/-- R142: that word makes the bank live with the width asked for. -/
theorem live_of_bcr_eq {s : State} {n : BusWidth} (h : s.bcr = liveBcr n) : Live s n := by
  rw [live_iff, h]; cases n <;> decide

/-- Settles O50: three register writes in a row, of words that their masks leave as they are. -/
theorem initializerMakesBankLive : Obligations.InitializerMakesBankLive := by
  intro s rtp wtp n rest hr hv hh
  refine ⟨_, ?_, live_of_bcr_eq rfl, rfl⟩
  rw [requests_initializer] at hh
  calc runSteps 3 s
      = runSteps 2 _ := runSteps_succ_of (step_of_cfgwr (k := 1) hr hv rfl hh) 2
    _ = runSteps 1 _ := runSteps_succ_of (step_of_cfgwr (k := 2) (by exact hr) (by exact hv) rfl (by rfl)) 1
    _ = runSteps 0 _ := runSteps_succ_of (step_of_cfgwr (k := 0) (by exact hr) (by exact hv) rfl (by rfl)) 0
    _ = _ := by
      simp [runSteps, answered, State.writeReg, State.setHost, regMask, timingWord_and_regMask, liveBcr_and_regMask]

/-! ### The forms of `write_command` -/

/-- A value that was widened is in the low bits of the result. -/
theorem extractLsb'_setWidth_self {k m : Nat} (hk : k ≤ m) (x : BitVec k) : (x.setWidth m).extractLsb' 0 k = x := by
  rw [← BitVec.setWidth_eq_extractLsb' hk, BitVec.setWidth_setWidth_of_le _ hk, BitVec.setWidth_eq]

/-- R110, R52: the byte that software widens is the halfword that the hardware makes of it. -/
theorem writeCommandWide_eq (p : Params) (value : Byte) : ∃ v : Word,
    writeCommandWide p value = [.wrcmd16 (commandAddress p) v] ∧
      .d16 (v.extractLsb' 0 16) = byteOnBus p.byteFill .w16 value := by
  unfold writeCommandWide
  cases p.byteFill with
  | zero =>
    have hlow : ∀ b : Byte, (b.setWidth 32).extractLsb' 0 16 = 0#8 ++ b := by decide
    exact ⟨_, rfl, congrArg PinData.d16 (hlow value)⟩
  | dup =>
    have hboth : ∀ b : Byte, (b.setWidth 32 <<< 8 ||| b.setWidth 32).extractLsb' 0 16 = b ++ b := by decide
    exact ⟨_, rfl, congrArg PinData.d16 (hboth value)⟩

/-- Settles O51: both forms put the same halfword on the lines in one write cycle at the command address. -/
theorem commandFormsAgree : Obligations.CommandFormsAgree := by
  intro s value hr hv hl i hi j hj
  obtain ⟨v, hwide, hlines⟩ := writeCommandWide_eq s.params value
  rw [writeCommand, List.mem_singleton] at hi
  rw [hwide, List.mem_singleton] at hj
  subst hi hj
  have hbyte := (byteWritesRunOneCycle s .w16 (commandAddress s.params) (value.setWidth 32) hr hl).1
  have hhalf := (halfwordWritesRunOneCycle s (commandAddress s.params) v hr hl (commandAddress_even hv)).1
  rw [extractLsb'_setWidth_self (by decide), ← hlines] at hbyte
  exact ⟨_, hbyte, hhalf, by rw [← hlines]; rfl⟩

/-! ### Runs of writes -/

/-- From `s` one step per event of `es` serves the requests before `rest`: these write cycles and no others, each answered,
and the registers as they were. -/
def WritesInOrder (s : State) (rest : List Request) (es : List BusEvent) : Prop :=
  ∃ t, runSteps es.length s = .next t ∧ t.Ready ∧ t.host = rest ∧ t.trace = s.trace ++ es ∧
    t.responses = s.responses ++ List.replicate es.length .written ∧ t.bcr = s.bcr ∧ t.rtr = s.rtr ∧ t.wtr = s.wtr

theorem WritesInOrder.nil {s : State} {rest : List Request} (hr : s.Ready) (hh : s.host = rest) :
    WritesInOrder s rest [] :=
  ⟨s, rfl, hr, hh, (List.append_nil _).symm, (List.append_nil _).symm, rfl, rfl, rfl⟩

/-- One more write in front. -/
theorem WritesInOrder.cons {s : State} {q rest : List Request} {rs : Bool} {n : BusWidth} {a : Word} {dout : Half}
    {data : PinData} {es : List BusEvent} (hstep : step s = .next (afterWrite (s.setHost q) rs n a dout data))
    (h : WritesInOrder (afterWrite (s.setHost q) rs n a dout data) rest es) :
    WritesInOrder s rest (writeEvent s rs a data :: es) := by
  obtain ⟨t, hrun, hready, hhost, htrace, hresp, hregs⟩ := h
  refine ⟨t, (runSteps_succ_of hstep _).trans hrun, hready, hhost, ?_, ?_, hregs⟩
  · rw [htrace]; exact List.append_assoc s.trace [_] es
  · rw [hresp]; exact List.append_assoc s.responses [_] _

/-- R111, R52: the lines of a bus of width `n` for `write_data(v, w)`. -/
def dataLines (fill : ByteFill) (w n : BusWidth) (v : Half) : PinData :=
  match w with
  | .w8 => byteOnBus fill n (v.extractLsb' 0 8)
  | .w16 => .d16 v

/-- R111: `write_data` is one write cycle at the data address. -/
theorem step_of_writeData {s : State} {w n : BusWidth} {v : Half} {rest : List Request} (hr : s.Ready)
    (hv : s.params.Valid) (hl : Live s n) (hw : w = .w16 → n = .w16 ∧ s.params.Reaches16)
    (hh : s.host = (writeData s.params w v).map Instr.request ++ rest) :
    step s = .next (afterWrite (s.setHost rest) true n (dataAddress s.params)
      (dataLines s.params.byteFill w n v).all (dataLines s.params.byteFill w n v)) := by
  have ha := decodeAddress_dataAddress hv
  cases w with
  | w8 =>
    have hbyte : ((v.setWidth 8).setWidth 32).extractLsb' 0 8 = v.extractLsb' 0 8 := by
      rw [extractLsb'_setWidth_self (by decide), BitVec.setWidth_eq_extractLsb' (by decide)]
    rw [requests_writeData_w8] at hh
    rw [step_of_bank_write hr hh ha rfl (bankCheck_b8_of_live hl _), busLines_b8, hbyte]
    rfl
  | w16 =>
    obtain ⟨rfl, h16⟩ := hw rfl
    rw [requests_writeData_w16] at hh
    rw [step_of_bank_write hr hh ha rfl (bankCheck_b16_of_live hl (dataAddress_even hv h16)), busLines_b16,
      extractLsb'_setWidth_self (by decide)]
    rfl

/-- R113, R114: a sequence of `write_data` is one write cycle per value, in sequence order. -/
theorem writesInOrder_of_writeData {w n : BusWidth} {rest : List Request} (vs : List Half) {s : State} (hr : s.Ready)
    (hv : s.params.Valid) (hl : Live s n) (hw : w = .w16 → n = .w16 ∧ s.params.Reaches16)
    (hh : s.host = (vs.flatMap (writeData s.params w)).map Instr.request ++ rest) :
    WritesInOrder s rest
      (vs.map fun v => writeEvent s true (dataAddress s.params) (dataLines s.params.byteFill w n v)) := by
  induction vs generalizing s with
  | nil => exact .nil hr hh
  | cons v vs ih =>
    rw [List.flatMap_cons, List.map_append, List.append_assoc] at hh
    exact .cons (step_of_writeData hr hv hl hw hh) (ih ⟨hr.1, rfl⟩ hv hl hw rfl)

/-- R110: `write_command` in its first form is one write cycle at the command address. -/
theorem step_of_writeCommand {s : State} {n : BusWidth} {b : Byte} {rest : List Request} (hr : s.Ready)
    (hv : s.params.Valid) (hl : Live s n) (hh : s.host = (writeCommand s.params b).map Instr.request ++ rest) :
    step s = .next (afterWrite (s.setHost rest) false n (commandAddress s.params)
      (byteOnBus s.params.byteFill n b).all (byteOnBus s.params.byteFill n b)) := by
  rw [requests_writeCommand] at hh
  rw [step_of_bank_write hr hh (decodeAddress_commandAddress hv) rfl (bankCheck_b8_of_live hl _), busLines_b8,
    extractLsb'_setWidth_self (by decide)]
  rfl

/-- R113, D31: the parameters of `send_command` as values of `write_data`. -/
theorem sendCommand_eq (p : Params) (opcode : Byte) (params : List Byte) : sendCommand p opcode params =
    writeCommand p opcode ++ (params.map (BitVec.setWidth 16)).flatMap (writeData p .w8) := by
  rw [sendCommand, List.flatMap_map]

/-- A parameter byte is on the lines as any other byte. -/
theorem dataLines_of_byte (fill : ByteFill) (n : BusWidth) (b : Byte) :
    dataLines fill .w8 n (b.setWidth 16) = byteOnBus fill n b := by
  rw [dataLines, extractLsb'_setWidth_self (by decide)]

/-- Settles O52: the command's write, then the run of the parameters' writes. -/
theorem sendCommandTrace : Obligations.SendCommandTrace := by
  intro s n opcode params rest hr hv hl hh
  rw [sendCommand_eq, List.map_append, List.append_assoc] at hh
  have hcommand := step_of_writeCommand hr hv hl hh
  have hrun : WritesInOrder s rest (writeEvent s false (commandAddress s.params) (byteOnBus s.params.byteFill n opcode) ::
      (params.map (BitVec.setWidth 16)).map fun v =>
        writeEvent s true (dataAddress s.params) (dataLines s.params.byteFill .w8 n v)) :=
    .cons hcommand (writesInOrder_of_writeData _ ⟨hr.1, rfl⟩ hv hl nofun rfl)
  simpa [WritesInOrder, Function.comp_def, dataLines_of_byte, Nat.add_comm] using hrun

/-- Settles O53: on a bus of width `n` the lines carry each element as it is. -/
theorem sendDataTrace : Obligations.SendDataTrace := by
  intro s n payload rest hr hv h16 hl hh
  have hrun := writesInOrder_of_writeData payload hr hv hl (fun hn => ⟨hn, h16 hn⟩) hh
  cases n with
  | w8 => simpa [WritesInOrder, dataLines, byteOnBus] using hrun
  | w16 => simpa [WritesInOrder, dataLines] using hrun

/-! ### `read_data` -/

/-- Settles O54: the one read of the width of the bus, at the data address. -/
theorem readDataTrace : Obligations.ReadDataTrace := by
  intro s n rest hr hv h16 hl hh
  have ha := decodeAddress_dataAddress hv
  cases n with
  | w8 =>
    rw [requests_readData_w8] at hh
    rw [step_of_bank_read hr hh ha rfl (bankCheck_b8_of_live hl _), pinData_w8]
    rfl
  | w16 =>
    rw [requests_readData_w16] at hh
    rw [step_of_bank_read hr hh ha rfl (bankCheck_b16_of_live hl (dataAddress_even hv (h16 rfl)))]
    rfl

end Sys2Proof.Machine
end

section
/-! Error responses: which check gives the cause, and what is left as it was (R120, R124, R125, R133). -/

namespace Sys2Proof.Machine

/-! ### No request -/

/-- R133: with no request presented there is no response. -/
theorem portOut_no_request {s : State} (hr : s.Ready) (hh : s.host = []) : portOut s = .quiet := by
  simp [portOut, portOutOf, hr.2, hh]

/-- Settles O12: the step and the clock cycle are both the idle cycle, and the port and the pins rest. -/
theorem nothingHappensWithoutARequest : Obligations.NothingHappensWithoutARequest := fun _ hr hh =>
  ⟨step_no_request hr hh, clockEdge_idle_nil hr.1 hr.2 hh, pins_at_rest (.inl hr.2), portOut_no_request hr hh⟩

/-! ### The checks of a bank access by bit positions -/

theorem bcrLegal_eq_false_iff (b : Word) : bcrLegal b = false ↔ ¬LegalBcr b := by
  rw [← bcrLegal_iff, Bool.not_eq_true]

/-- R15: the 8-bit bus of a legal `BCR`. -/
theorem bcrWidth_w8_iff {b : Word} (hl : LegalBcr b) : bcrWidth b = .w8 ↔ b.getLsbD 4 = false :=
  (mwid_low_iff b .w8 hl.2.2).symm

/-- R70 with the fields of `BCR` read by position; the width is looked at in a legal `BCR` only. -/
theorem bankCheck_by_bits (bcr : Word) (size : Size) (addr : Word) : bankCheck bcr size addr =
    if size = .b32 ∨ size = .reserved then .error .size
    else if size = .b16 ∧ addr.getLsbD 0 = true then .error .align
    else if bcr.getLsbD 0 = false then .error .disabled
    else if ¬LegalBcr bcr then .error .config
    else if size = .b16 ∧ bcr.getLsbD 4 = false then .error .width
    else .ok (bcrWidth bcr) := by
  by_cases hl : LegalBcr bcr
  · simp only [bankCheck, bcrEn, bcrLegal_eq_false_iff, bcrWidth_w8_iff hl]
  · simp only [bankCheck, bcrEn, bcrLegal_eq_false_iff, if_pos hl]

section
variable {bcr addr : Word} {size : Size}

theorem bankCheck_misaligned (ha : addr.getLsbD 0 = true) : bankCheck bcr .b16 addr = .error .align := by
  rw [bankCheck_b16, if_pos ha]

/-- A byte access, and a halfword access to an even address, get past size and alignment. -/
theorem bankCheck_of_aligned (hz : size = .b8 ∨ size = .b16 ∧ addr.getLsbD 0 = false) : bankCheck bcr size addr =
    if bcr.getLsbD 0 = false then .error .disabled
    else if ¬LegalBcr bcr then .error .config
    else if size = .b16 ∧ bcr.getLsbD 4 = false then .error .width
    else .ok (bcrWidth bcr) := by
  obtain rfl | ⟨rfl, ha⟩ := hz
  · rw [bankCheck_by_bits, if_neg (by decide), if_neg (by simp)]
  · rw [bankCheck_by_bits, if_neg (by decide), if_neg fun h => Bool.noConfusion (ha.symm.trans h.2)]

theorem bankCheck_disabled (hz : size = .b8 ∨ size = .b16 ∧ addr.getLsbD 0 = false) (he : bcr.getLsbD 0 = false) :
    bankCheck bcr size addr = .error .disabled := by
  rw [bankCheck_of_aligned hz, if_pos he]

theorem bankCheck_illegal (hz : size = .b8 ∨ size = .b16 ∧ addr.getLsbD 0 = false) (he : bcr.getLsbD 0 = true)
    (hl : ¬LegalBcr bcr) : bankCheck bcr size addr = .error .config := by
  rw [bankCheck_of_aligned hz, he, if_neg Bool.noConfusion, if_pos hl]

end

theorem bankCheck_narrow {s : State} {addr : Word} (ha : addr.getLsbD 0 = false) (hl : Live s .w8) :
    bankCheck s.bcr .b16 addr = .error .width := by
  obtain ⟨he, hlegal, h4⟩ := hl
  rw [bankCheck_of_aligned (.inr ⟨rfl, ha⟩), he, if_neg Bool.noConfusion, if_neg (not_not_intro hlegal),
    if_pos ⟨rfl, h4⟩]

/-! ### The bank operations -/

/-- `i` is a bank operation of the given size at the given address. -/
def IsBankAccess (i : Instr) (size : Size) (addr : Word) : Prop :=
  i.isBank = true ∧ i.request.size = size ∧ i.addr = addr

theorem IsBankAccess.exec_of_error {i : Instr} {size : Size} {addr : Word} (hi : IsBankAccess i size addr)
    {s : State} {c : Fault} (hc : bankCheck s.bcr size addr = .error c) :
    exec i s = .next (answered s (.error c)) := by
  obtain ⟨hb, rfl, rfl⟩ := hi
  exact exec_of_bank_error hb hc

theorem isBankAccess_b16 (addr v : Word) :
    ∀ i ∈ [Instr.wrcmd16 addr v, .wrdat16 addr v, .rdcmd16 addr, .rddat16 addr], IsBankAccess i .b16 addr := by
  simp [IsBankAccess, Instr.isBank, Instr.opcode, Instr.addr]

theorem isBankAccess_b8 (addr v : Word) :
    ∀ i ∈ [Instr.wrcmd8 addr v, .wrdat8 addr v, .rdcmd8 addr, .rddat8 addr], IsBankAccess i .b8 addr := by
  simp [IsBankAccess, Instr.isBank, Instr.opcode, Instr.addr]

/-- Settles O21: the operations of one size share their checks, and each clause is the check that fails first. -/
theorem bankChecksInOrder : Obligations.BankChecksInOrder := by
  intro s addr v _
  constructor
  · intro i hi
    have hacc := isBankAccess_b16 addr v i hi
    exact ⟨fun ha => hacc.exec_of_error (bankCheck_misaligned ha),
      fun ha he => hacc.exec_of_error (bankCheck_disabled (.inr ⟨rfl, ha⟩) he),
      fun ha he hl => hacc.exec_of_error (bankCheck_illegal (.inr ⟨rfl, ha⟩) he hl),
      fun ha hl => hacc.exec_of_error (bankCheck_narrow ha hl)⟩
  · intro i hi
    have hacc := isBankAccess_b8 addr v i hi
    exact ⟨fun he => hacc.exec_of_error (bankCheck_disabled (.inl rfl) he),
      fun he hl => hacc.exec_of_error (bankCheck_illegal (.inl rfl) he hl)⟩

/-! ### The answer to a presented request -/

/-- The presented request is over with an error response of cause `c` and no bus cycle; `rest` are the requests left. -/
def AnswersError (s : State) (rest : List Request) (c : Fault) : Prop :=
  ∃ t, step s = .next t ∧ t.host = rest ∧ t.responses = s.responses ++ [.error c] ∧ t.trace = s.trace

/-- The presented request is over with a response that is no error; `rest` are the requests left. -/
def AnswersOkay (s : State) (rest : List Request) : Prop :=
  ∃ t x, step s = .next t ∧ t.host = rest ∧ t.responses = s.responses ++ [x] ∧ Response.isError x = false

/-- What the step answers when the checks give this cause, or none. -/
def Answers (s : State) (rest : List Request) : Option Fault → Prop
  | some c => AnswersError s rest c
  | none => AnswersOkay s rest

/-- The cause a bank access fails with, if it fails. -/
def failedCheck : Except Fault BusWidth → Option Fault
  | .error c => some c
  | .ok _ => none

@[simp] theorem writeReg_host (s : State) (k : ConfigReg) (v : Word) : (s.writeReg k v).host = s.host := by
  cases k <;> rfl

section
variable {s : State} {r : Request} {rest : List Request} (hr : s.Ready) (hh : s.host = r :: rest)
include hr hh

/-- R103: a configuration access with a failing check. -/
theorem step_of_cfg_error {k : BitVec 2} (ha : decodeAddress s.params r.addr = .cfg k) {c : Fault}
    (hc : cfgCheck r.size r.addr = some c) : step s = .next (errorResponse c (s.setHost rest)) := by
  rw [step_of_cfg hr hh ha, idleEdge_of_error (verdict_of_cfg_error ha hc)]

/-- R104: a configuration access that passes its checks. -/
theorem answersOkay_of_cfg {k : BitVec 2} (ha : decodeAddress s.params r.addr = .cfg k)
    (hc : cfgCheck r.size r.addr = none) : AnswersOkay s rest := by
  obtain ⟨reg, -, hv⟩ := verdict_of_cfg_ok (bcr := s.bcr) ha hc
  have hstep := (step_of_cfg hr hh ha).trans (congrArg _ (idleEdge_of_config hv rest))
  cases hw : r.write with
  | true =>
    rw [if_pos hw] at hstep
    exact ⟨_, .written, hstep, by simp, by simp, rfl⟩
  | false =>
    rw [if_neg (by simp [hw])] at hstep
    exact ⟨_, .value (s.readReg reg), hstep, rfl, rfl, rfl⟩

/-- R70, R80: a bank access that passes its checks. -/
theorem answersOkay_of_bank {rs : Bool} (ha : decodeAddress s.params r.addr = .bank rs) {n : BusWidth}
    (hc : bankCheck s.bcr r.size r.addr = .ok n) : AnswersOkay s rest :=
  ⟨_, _, step_of_bank_ok hr hh ha hc, rfl, rfl, accessResponse_isError _ r n⟩

theorem answers_cfgCheck {k : BitVec 2} (ha : decodeAddress s.params r.addr = .cfg k) :
    Answers s rest (cfgCheck r.size r.addr) := by
  cases hc : cfgCheck r.size r.addr with
  | some c => exact ⟨_, step_of_cfg_error hr hh ha hc, rfl, rfl, rfl⟩
  | none => exact answersOkay_of_cfg hr hh ha hc

theorem answers_bankCheck {rs : Bool} (ha : decodeAddress s.params r.addr = .bank rs) :
    Answers s rest (failedCheck (bankCheck s.bcr r.size r.addr)) := by
  cases hc : bankCheck s.bcr r.size r.addr with
  | error c => exact ⟨_, step_of_bank_error hr hh ha hc, rfl, rfl, rfl⟩
  | ok n => exact answersOkay_of_bank hr hh ha hc

end

/-- Settles O10: a request is answered as its checks say, and R124's order is the order in which they are written. -/
theorem requestChecksInOrder : Obligations.RequestChecksInOrder := by
  refine ⟨fun s hr => ⟨_, step_in_reset hr, atResetValues_atReset s _, rfl⟩, ?_⟩
  intro s r rest hr hh failed passed
  refine ⟨step_of_outside hr hh, ?_, ?_⟩
  · intro k ha
    have h := answers_cfgCheck hr hh ha
    simp only [cfgCheck, extractLsb'_of_cfg ha, apply_ite (Answers s rest)] at h
    exact h
  · intro rs ha
    have h := answers_bankCheck hr hh ha
    simp only [bankCheck_by_bits, apply_ite failedCheck, apply_ite (Answers s rest)] at h
    exact h

/-! ### What an error response changes -/

/-- Everything a step from rest can be: an idle cycle, an error response in the state without the request, or a
response that is no error. -/
theorem step_ready_cases {s t : State} (hr : s.Ready) (h : step s = .next t) :
    (s.host = [] ∧ t = idleCycle s) ∨
    ∃ r rest, s.host = r :: rest ∧ ((∃ c, t = errorResponse c (s.setHost rest)) ∨ AnswersOkay s rest) := by
  cases hh : s.host with
  | nil =>
    rw [step_no_request hr hh] at h
    cases h
    exact .inl ⟨rfl, rfl⟩
  | cons r rest =>
    refine .inr ⟨r, rest, rfl, ?_⟩
    cases ha : decodeAddress s.params r.addr with
    | cfg k =>
      cases hc : cfgCheck r.size r.addr with
      | some c =>
        rw [step_of_cfg_error hr hh ha hc] at h
        cases h
        exact .inl ⟨c, rfl⟩
      | none => exact .inr (answersOkay_of_cfg hr hh ha hc)
    | bank rs =>
      obtain ⟨c, hc⟩ | ⟨n, hc⟩ := bankCheck_cases s.bcr r.size r.addr
      · rw [step_of_bank_error hr hh ha hc] at h
        cases h
        exact .inl ⟨c, rfl⟩
      · exact .inr (answersOkay_of_bank hr hh ha hc)
    | outside =>
      rw [step_of_outside hr hh ha] at h
      cases h

/-- Settles O22: an idle cycle logs nothing and an accepted or passing request no error, so the step is an error
response, and the log shows its cause. -/
theorem errorResponseChangesNothing : Obligations.ErrorResponseChangesNothing := by
  intro s t c hr h hx
  obtain ⟨-, rfl⟩ | ⟨r, rest, hh, ⟨c', rfl⟩ | ⟨u, x, hu, -, hux, hok⟩⟩ := step_ready_cases hr h
  · simp [idleCycle] at hx
  · obtain rfl : c' = c := by simpa using hx
    exact ⟨r, rest, hh, rfl⟩
  · rw [h] at hu
    cases hu
    obtain rfl : .error c = x := by simpa [hx] using hux
    cases hok

end Sys2Proof.Machine
end

section
/-! The board and the device (R143, R146): what reaches them is what the trace says. -/

namespace Sys2Proof.Machine

/-! ### Bound pins -/

/-- R30: the register-select value of a bank address is its bit `RS_BIT`. -/
theorem getLsbD_rsBit_of_bank {p : Params} {a : Word} {rs : Bool} (h : decodeAddress p a = .bank rs) :
    a.getLsbD p.rsBit = rs := by
  unfold decodeAddress at h
  split_ifs at h
  exact Region.bank.inj h

/-- R96: what FDBIC drives is as wide as the bus of the latch. -/
theorem pins_d_width {s : State} {d : PinData} (h : (pins s).d = some d) : d.width = s.cur.n := by
  simp only [pins, Option.ite_none_right_eq_some, Option.some.injEq] at h
  rw [← h.2, pinData_width]

/-- A mask that has the lines of the bus loses nothing of what FDBIC drives. -/
theorem pins_and_of_bound {s : State} {m : Half} (h : ∀ j < s.cur.n.bits, m.getLsbD j = true) :
    (pins s).lines &&& m = (pins s).lines ∧ (pins s).value &&& m = (pins s).value := by
  unfold Pins.lines Pins.value
  cases hd : (pins s).d with
  | none => exact ⟨BitVec.zero_and, BitVec.zero_and⟩
  | some d =>
    rw [← pins_d_width hd] at h
    exact ⟨PinData.lines_and_of_bound h, PinData.all_and_of_bound h⟩

/-- Settles O55: bound lines pass the pins through, and an event's address lies in the window. -/
theorem boundPinsReachTheBoard : Obligations.BoundPinsReachTheBoard := by
  constructor
  · rintro b s ⟨⟨hcs, hrd, hwr, hrs⟩, hlines, -⟩
    obtain ⟨hl, hv⟩ := pins_and_of_bound hlines
    simp only [boardPins, hcs, hrd, hwr, hrs, whenBound_true, hl, hv]
  · rintro b s hinv e he ⟨⟨hcs, hrd, hwr, hrs⟩, hlines, hbit⟩
    have haddr := getLsbD_rsBit_of_bank (hinv.trace_in_window e he)
    simp only [seenByDevice, hcs, hrd, hwr, hrs, hbit, haddr, whenBound_true, PinData.lines_and_of_bound hlines,
      PinData.all_and_of_bound hlines]
    cases e.kind <;> rfl

/-! ### The events of a step -/

/-- R98: `e` is the event of a transfer whose latch has the timing set of its direction, from the registers of `s`. -/
def TimedBy (s : State) (e : BusEvent) : Prop :=
  ∃ (c : TransferLatch) (din : Half), c.t = s.timingFor c.write ∧ e = eventOf c din

/-- R146: a device that accepts the counts of `RTR` and `WTR` accepts a cycle timed by them. -/
theorem TimedBy.accepted {s : State} {e : BusEvent} (h : TimedBy s e) {accepts : BusKind → TimingSet → Bool}
    (hd : DeviceAccepts accepts s) : accepts e.kind e.tset = true := by
  obtain ⟨⟨w, _, _, _, _, t⟩, din, ht, rfl⟩ := h
  obtain rfl : t = s.timingFor w := ht
  cases w with
  | true => exact hd.2
  | false => exact hd.1

/-- R91: the latch of an accepted request is timed by the registers. -/
theorem timedBy_accessEvent (s : State) (r : Request) (rs : Bool) (n : BusWidth) : TimedBy s (accessEvent s r rs n) :=
  ⟨acceptLatch s r rs n, _, rfl, rfl⟩

/-- R98: the registers have not changed since the transfer in flight was accepted. -/
theorem timedBy_of_inFlight {s : State} (h : Inv s) (hf : inFlight s = true) (din : Half) :
    TimedBy s (eventOf s.cur din) := by
  obtain ⟨r, rest, -, -, -, hcur⟩ := h.flight_latched hf
  refine ⟨s.cur, din, ?_, rfl⟩
  rw [hcur]
  rfl

/-- The edge of an `IDLE` cycle performs no bus cycle (R91, R103, R104). -/
@[simp] theorem idleEdge_trace (s : State) (r : Request) (rest : List Request) :
    (idleEdge s r rest).trace = s.trace := by
  unfold idleEdge
  split
  · rfl
  · rfl
  · split
    · exact writeReg_trace _ _ _
    · rfl
  · unfold acceptEdge
    split <;> rfl

/-- R93, R94: the edge of a `DATA` cycle performs the cycle of the latch, or none. -/
theorem dataEdge_trace (din : Half) (s : State) (r : Request) (rest : List Request) :
    (dataEdge din s r rest).trace = s.trace ∨ (dataEdge din s r rest).trace = s.trace ++ [eventOf s.cur din] := by
  unfold dataEdge
  split
  · exact .inr (by simp)
  · exact .inl rfl

/-- From `s` to `t` the trace stays, or has one more cycle, timed by the registers of `s`. -/
def TraceGrowsTimed (s t : State) : Prop := t.trace = s.trace ∨ ∃ e, TimedBy s e ∧ t.trace = s.trace ++ [e]

/-- At rest a step performs the cycle of an accepted bank request, or none. -/
theorem traceGrowsTimed_of_ready {s t : State} (hr : s.Ready) (h : step s = .next t) : TraceGrowsTimed s t := by
  cases hh : s.host with
  | nil =>
    rw [step_no_request hr hh] at h
    cases h
    exact .inl rfl
  | cons r rest =>
    cases ha : decodeAddress s.params r.addr with
    | cfg k =>
      rw [step_of_cfg hr hh ha] at h
      cases h
      exact .inl (idleEdge_trace s r rest)
    | bank rs =>
      obtain ⟨c, hc⟩ | ⟨n, hc⟩ := bankCheck_cases s.bcr r.size r.addr
      · rw [step_of_bank_error hr hh ha hc] at h
        cases h
        exact .inl rfl
      · rw [step_of_bank_ok hr hh ha hc] at h
        cases h
        exact .inr ⟨_, timedBy_accessEvent s r rs n, rfl⟩
    | outside =>
      rw [step_of_outside hr hh ha] at h
      cases h

/-- In the middle of a transfer a step performs the cycle in flight, or none. -/
theorem traceGrowsTimed_in_transfer {s t : State} (hinv : Inv s) (hr : s.rst = .over) (hp : s.phase ≠ .idle)
    (h : step s = .next t) : TraceGrowsTimed s t := by
  rw [step_in_transfer hr hp] at h
  obtain ⟨-, rfl⟩ | ⟨hdata, r, rest, -, rfl⟩ | ⟨-, rfl⟩ := clockEdge_in_transfer hr hp h
  · exact .inl (undisturbed_addrEdge s).2.2
  · have hf : inFlight s = true := s.inFlight_iff.mpr (.inr hdata)
    exact (dataEdge_trace _ s r rest).imp_right fun ht => ⟨_, timedBy_of_inFlight hinv hf _, ht⟩
  · exact .inl (undisturbed_turnEdge s).2.2

/-- What a step does to the trace: reset leaves it empty, and otherwise it grows by a timed cycle at most. -/
theorem step_trace_cases {s t : State} (hinv : Inv s) (h : step s = .next t) :
    t.trace = [] ∨ TraceGrowsTimed s t := by
  by_cases hr : s.rst = .over
  · by_cases hp : s.phase = .idle
    · exact .inr (traceGrowsTimed_of_ready ⟨hr, hp⟩ h)
    · exact .inr (traceGrowsTimed_in_transfer hinv hr hp h)
  · rw [step_in_reset hr] at h
    cases h
    exact .inl rfl

/-- Settles O56: a new event is timed by the registers, whose counts the device accepts. -/
theorem acceptedCountsGiveAcceptedCycles : Obligations.AcceptedCountsGiveAcceptedCycles := by
  intro accepts s t hinv hd h e he
  obtain ht | ht | ⟨e', htimed, ht⟩ := step_trace_cases hinv h
  · simp [ht] at he
  · exact .inl (ht ▸ he)
  · rw [ht, List.mem_append, List.mem_singleton] at he
    exact he.imp_right fun (hee : e = e') => hee ▸ htimed.accepted hd

end Sys2Proof.Machine
end

section
/-! Reset, its end, and the run that a fault has spoilt (R120, R140, R141, R152). -/

namespace Sys2Proof.Machine

/-! ### Good runs -/

/-- R152: a response that leaves the earlier ones in the log cannot make the run good again. -/
theorem goodRun_of_append {s t : State} {xs : List Response} (ht : t.responses = s.responses ++ xs)
    (h : goodRun t = true) : goodRun s = true := by
  unfold goodRun at h ⊢
  rw [ht, List.all_append, Bool.and_eq_true] at h
  exact h.1

/-- Settles O34: a step keeps the response log or appends one response to it. -/
theorem faultedRunStaysBad : Obligations.FaultedRunStaysBad := by
  intro s t hr h hbad
  have hlog : ∃ xs, t.responses = s.responses ++ xs := by
    obtain ⟨-, hx, -⟩ | ⟨_, x, -, hx, -⟩ := strictRequestOrder s t hr h
    · exact ⟨[], by rw [hx, List.append_nil]⟩
    · exact ⟨[x], hx⟩
  obtain ⟨xs, hxs⟩ := hlog
  exact Bool.eq_false_iff.mpr fun hgood => by simp [goodRun_of_append hxs hgood] at hbad

/-! ### During reset -/

/-- Settles O47: a step and a clock cycle go to the reset values of the stage that the edge leads to. -/
theorem nothingIsAcceptedInReset : Obligations.NothingIsAcceptedInReset := by
  intro s hr
  refine ⟨s.atReset s.rst.atEdge, step_in_reset hr, clockEdge_in_reset hr, atResetValues_atReset s _, ?_, ?_, rfl, rfl,
    rfl, portOut_in_reset hr⟩
  · intro ha
    rw [State.atReset_rst, ha, ResetStage.atEdge_asserted]
  · intro hrel
    rw [State.atReset_rst, hrel, ResetStage.atEdge_released]

/-- Settles O48: the fall of `rst_n` takes the request in flight off the host's list, and a step in reset changes
nothing. -/
theorem resetCutsTransferOff : Obligations.ResetCutsTransferOff := by
  intro s r rest hp hh t
  have hhost : t.host = rest := by
    simp only [t, State.assertReset_eq, if_pos (s.inFlight_iff.mpr hp), hh, List.tail_cons]
  exact ⟨rfl, hhost, rfl, rfl, Nat.succ_ne_self s.dev, step_in_reset (s := t) (by simp [t, State.assertReset])⟩

/-! ### A request held through reset -/

/-- R70: on a bank that is not enabled every access fails a check. -/
theorem bankCheck_fails_of_not_enabled {bcr : Word} (he : bcrEn bcr = false) (size : Size) (addr : Word) :
    ∃ c, bankCheck bcr size addr = .error c := by
  refine (bankCheck_cases bcr size addr).resolve_right ?_
  rintro ⟨n, hn⟩
  have hen := ((bankCheck_ok_iff _ _ _ _).mp hn).2.1
  simp [he] at hen

/-- R103, R104: while the bank is not enabled a request of either region is answered at once. -/
theorem verdict_immediate_of_not_enabled {p : Params} {bcr : Word} {r : Request} (he : bcrEn bcr = false)
    (hin : decodeAddress p r.addr ≠ .outside) :
    (∃ c, verdict p bcr r = .error c) ∨ ∃ reg, verdict p bcr r = .config reg := by
  cases ha : decodeAddress p r.addr with
  | cfg k => exact verdict_of_cfg ha
  | bank rs => exact .inl ((bankCheck_fails_of_not_enabled he _ _).imp fun _ => verdict_of_bank_error ha)
  | outside => exact absurd ha hin

/-- R103, R104: a request that is answered at once leaves the host's list at the edge. -/
theorem idleEdge_host_of_immediate {s : State} {r : Request} (rest : List Request)
    (hv : (∃ c, verdict s.params s.bcr r = .error c) ∨ ∃ reg, verdict s.params s.bcr r = .config reg) :
    (idleEdge s r rest).host = rest := by
  obtain ⟨c, hv⟩ | ⟨reg, hv⟩ := hv
  · rw [idleEdge_of_error hv]
    rfl
  · rw [idleEdge_of_config hv]
    split
    · exact writeReg_host _ _ _
    · rfl

@[simp] theorem responseOut_err (x : Response) : (responseOut x).err = x.isError := by cases x <;> rfl

/-- Settles O57: the first edge leads to the reset values with the request still presented; there the bank is not
enabled, so the request is answered at once. -/
theorem heldRequestIsAnsweredAfterReset : Obligations.HeldRequestIsAnsweredAfterReset := by
  intro s r rest hr hh hin
  have hreset : s.rst ≠ .over := by simp [hr]
  have hedge : clockEdge s = .next (s.atReset .over) := by
    rw [clockEdge_in_reset hreset, hr, ResetStage.atEdge_released]
  have hready : (s.atReset .over).Ready := ⟨rfl, rfl⟩
  have he : bcrEn (s.atReset .over).bcr = false := by simp [bcrEn]
  have hv := verdict_immediate_of_not_enabled he hin
  obtain ⟨u, x, hu, hx, hout⟩ := immediate_response hready hh hv
  obtain rfl : idleEdge (s.atReset .over) r rest = u := by
    simpa [clockEdge_idle_cons hready.1 hready.2 hh] using hu
  refine ⟨portOut_in_reset hreset, _, _, x, hedge, hh, rfl, ?_, ?_, hu, idleEdge_host_of_immediate rest hv, hx,
    idleEdge_trace _ r rest, ?_⟩
  · rw [hout, responseOut_ready]
  · rw [hout, responseOut_err]
  · intro rs ha
    obtain ⟨c, hc⟩ := bankCheck_fails_of_not_enabled he r.size r.addr
    obtain ⟨herr, -⟩ := immediate_error hready hh (verdict_of_bank_error ha hc)
    rw [← responseOut_err, ← hout, herr]
    rfl

end Sys2Proof.Machine
end

section
/-! The address decoder against the ranges of the two regions (R14, R27, R30). -/

namespace Sys2Proof

variable {p : Params} {a : Word}

/-- R14: the word of a register as an interval. -/
theorem inConfigWord_iff (p : Params) (k : Nat) (a : Word) :
    inConfigWord p k a = true ↔ p.cfgBase.toNat + 4 * k ≤ a.toNat ∧ a.toNat < p.cfgBase.toNat + 4 * k + 4 := by
  simp [inConfigWord]

/-- R32: the quotient of the ranges is the address bit of the decoder. -/
theorem selects_iff (p : Params) (rs : Bool) (a : Word) : selects p rs a = true ↔ a.getLsbD p.rsBit = rs := by
  rw [selects, getLsbD_eq_div]
  cases rs <;> simp

/-- R30: the slice compared for the configuration block holds in its 16 bytes and nowhere else. -/
theorem cfgSlice_iff (hv : p.Valid) :
    a >>> 4 = p.cfgBase >>> 4 ↔ p.cfgBase.toNat ≤ a.toNat ∧ a.toNat < p.cfgBase.toNat + 16 :=
  ushiftRight_eq_iff_range a p.cfgBase 4 (cfgBase_aligned hv)

/-- R30: the slice compared for the bank holds in the window and nowhere else. -/
theorem bankSlice_iff (hv : p.Valid) :
    a >>> p.windowBits = p.bankBase >>> p.windowBits ↔ inWindow p a = true :=
  (ushiftRight_eq_iff_range a p.bankBase _ hv.1).trans (inWindow_iff p a).symm

/-- The register number's word is the part of the block whose bits 3:2 are that number. -/
theorem decodeAddress_eq_cfg_iff (hv : p.Valid) (k : BitVec 2) :
    decodeAddress p a = .cfg k ↔ inConfigWord p k.toNat a = true := by
  have hbase := cfgBase_aligned hv
  have hk := k.isLt
  calc decodeAddress p a = .cfg k
      ↔ a >>> 4 = p.cfgBase >>> 4 ∧ a.extractLsb' 2 2 = k := by
        unfold decodeAddress
        split_ifs <;> simp [*]
    _ ↔ (p.cfgBase.toNat ≤ a.toNat ∧ a.toNat < p.cfgBase.toNat + 16) ∧ a.toNat / 4 % 4 = k.toNat := by
        rw [cfgSlice_iff hv, ← BitVec.toNat_inj, extractLsb'_2_2]
    _ ↔ inConfigWord p k.toNat a = true := by
        rw [inConfigWord_iff]
        omega

theorem decodeAddress_eq_bank_iff (hv : p.Valid) (rs : Bool) :
    decodeAddress p a = .bank rs ↔ inBank p rs a = true := by
  rw [inBank, Bool.and_eq_true, selects_iff]
  constructor
  · intro h
    refine ⟨(bankSlice_iff hv).mp ?_, Machine.getLsbD_rsBit_of_bank h⟩
    unfold decodeAddress at h
    split_ifs at h
    assumption
  · rintro ⟨hwindow, hbit⟩
    rw [decodeAddress_of_inWindow hv hwindow, hbit]

theorem decodeAddress_eq_outside_iff (hv : p.Valid) :
    decodeAddress p a = .outside ↔
      ¬(p.cfgBase.toNat ≤ a.toNat ∧ a.toNat < p.cfgBase.toNat + 16) ∧ inWindow p a = false := by
  rw [← cfgSlice_iff hv, ← Bool.not_eq_true, ← bankSlice_iff hv]
  unfold decodeAddress
  split_ifs <;> simp [*]

/-- Settles O6: one equivalence per answer of the decoder. -/
theorem addressDecoderMatchesRanges : Obligations.AddressDecoderMatchesRanges :=
  fun _ _ hv => ⟨decodeAddress_eq_cfg_iff hv, decodeAddress_eq_bank_iff hv, decodeAddress_eq_outside_iff hv⟩

end Sys2Proof
end

section
/-! Operation words and the regions they name (R51, R53). -/

namespace Sys2Proof

/-- The answer of the address decoder that an operation word holds, for a word of one of the two regions (R51). -/
def regionOfOp (op : OpWord) : Region :=
  if op.extractLsb' 5 2 = 0b10#2 then .bank (op.getLsbD 0) else .cfg (op.extractLsb' 0 2)

/-- An operation word has a request when its region is the configuration block, or the bank with bit 1 clear. -/
abbrev HasRequest (op : OpWord) : Prop :=
  op.extractLsb' 5 2 = 0b01#2 ∨ op.extractLsb' 5 2 = 0b10#2 ∧ op.getLsbD 1 = false

/-- R51: such a word is made up of its region's bits and its slices for direction and size. -/
theorem packOp_regionOfOp {op : OpWord} (h : HasRequest op) :
    packOp (regionOfOp op).regionBits (op.getLsbD 4) (op.extractLsb' 2 2) (regionOfOp op).subBits = op := by
  revert op; decide

theorem opTable_hasRequest : ∀ row ∈ opTable, HasRequest row.pattern := by decide

theorem Instr.opcode_hasRequest (i : Instr) : HasRequest i.opcode := by
  obtain ⟨row, hrow, hbuild⟩ := Option.map_eq_some_iff.mp (opcodeRow i)
  have hmem : row ∈ opTable := List.mem_of_find?_eq_some hrow
  obtain ⟨-, hfields⟩ := opTable_row row hmem
  obtain ⟨hopcode, -⟩ := hfields i.addr i.wdata
  rw [hbuild] at hopcode
  exact hopcode ▸ opTable_hasRequest row hmem

/-- R51: the operation word determines the answer of the address decoder. -/
theorem Region.eq_of_bits {g g' : Region} (hr : g.regionBits = g'.regionBits) (hs : g.subBits = g'.subBits) :
    g = g' := by
  cases g <;> cases g'
  case cfg.cfg => exact congrArg Region.cfg hs
  case bank.bank rs rs' => revert hs; cases rs <;> cases rs' <;> decide
  case outside.outside => rfl
  all_goals simp [Region.regionBits] at hr

/-- A request with the direction and size of an operation word has that word exactly when its address is in the word's
region. -/
theorem opWord_eq_iff {p : Params} {r : Request} {op : OpWord} (h : HasRequest op) (hw : r.write = op.getLsbD 4)
    (hz : r.size = Size.ofBits (op.extractLsb' 2 2)) : opWord p r = op ↔ decodeAddress p r.addr = regionOfOp op := by
  have hpack := packOp_regionOfOp h
  rw [opWord, hw, hz, Size.toBits_ofBits]
  constructor
  · intro e
    obtain ⟨hregion, -, -, hsub⟩ := packOp_inj (e.trans hpack.symm)
    exact Region.eq_of_bits hregion hsub
  · intro e
    rw [e, hpack]

end Sys2Proof
end

section
/-! Decoder and encoder agree: an instruction is well-formed exactly when its request has its operation word. -/

namespace Sys2Proof

/-- R56: each instruction's range is that of the region its operation word names. -/
theorem Instr.wellFormed_iff {p : Params} (hv : p.Valid) (i : Instr) :
    i.wellFormed p = true ↔ decodeAddress p i.addr = regionOfOp i.opcode := by
  cases i <;>
    simp [Instr.wellFormed, Instr.opcode, Instr.addr, regionOfOp, decodeAddress_eq_cfg_iff hv,
      decodeAddress_eq_bank_iff hv]

theorem opWord_request_eq_opcode_iff {p : Params} (hv : p.Valid) (i : Instr) :
    opWord p i.request = i.opcode ↔ i.wellFormed p = true :=
  (opWord_eq_iff i.opcode_hasRequest rfl rfl).trans (Instr.wellFormed_iff hv i).symm

/-- The operation word does not depend on the write value (R51). -/
theorem opWord_withWdata (p : Params) (r : Request) (v : Word) : opWord p { r with wdata := v } = opWord p r := rfl

/-- R56: what is decoded is well-formed. -/
theorem wellFormed_of_decodeRequest_ok {p : Params} (hv : p.Valid) {r : Request} {i : Instr}
    (h : decodeRequest p r = .ok i) : i.wellFormed p = true := by
  obtain ⟨hop, -, -⟩ := decodeRequest_ok_opcode h
  rw [← opWord_request_eq_opcode_iff hv, decodeRequest_ok_request h, opWord_withWdata, hop]

/-- R50: clearing the write value clears the low 32 bits. -/
theorem Request.toBits_wdata_zero (r : Request) :
    ({ r with wdata := 0 } : Request).toBits = r.toBits &&& ~~~((0xFFFFFFFF#32).setWidth 67) := by
  have hmask (j : Nat) : (0xFFFFFFFF#32).getLsbD j = decide (j < 32) := BitVec.getLsbD_allOnes
  apply BitVec.eq_of_getLsbD_eq
  intro j hj
  simp only [Request.toBits, BitVec.getLsbD_and, BitVec.getLsbD_or, BitVec.getLsbD_not, BitVec.getLsbD_shiftLeft,
    BitVec.getLsbD_setWidth, hmask]
  by_cases h : j < 32
  · simp [h, hj, show j < 64 by omega, show j < 66 by omega]
  · simp [h, hj, BitVec.getLsbD_of_ge r.wdata j (by omega)]

/-- Settles O3: the decoder reads the request back from the bits, and a well-formed instruction's request has the
instruction's operation word. -/
theorem decodeOfEncode : Obligations.DecodeOfEncode := by
  intro p i hv hwf
  rw [decodeBits, encode, Request.ofBits_toBits]
  exact decodeRequest_of_opcode ((opWord_request_eq_opcode_iff hv i).mpr hwf) rfl rfl

/-- Settles O4: the request of what is decoded is the one in the bits, up to a read's write value. -/
theorem encodeOfDecode : Obligations.EncodeOfDecode := by
  intro p b i hv h
  refine ⟨wellFormed_of_decodeRequest_ok hv h, ?_⟩
  have hwrite : (Request.ofBits b).write = b.getLsbD 66 := rfl
  rw [encode, decodeRequest_ok_request h, hwrite]
  split
  · exact Request.toBits_ofBits b
  · exact (Request.toBits_wdata_zero (Request.ofBits b)).trans (by rw [Request.toBits_ofBits])

end Sys2Proof
end

section
/-! Which requests are no operation (R54). -/

namespace Sys2Proof

variable {p : Params} {r : Request} {i : Instr}

theorem exists_decodeRequest_of_cfg {k : BitVec 2} (ha : decodeAddress p r.addr = .cfg k) (hz : r.size = .b32)
    (hk : k ≠ 3#2) : ∃ i, decodeRequest p r = .ok i := by
  have hcases : k = 0#2 ∨ k = 1#2 ∨ k = 2#2 := by
    clear ha
    revert k; decide
  obtain rfl | rfl | rfl := hcases <;> simp [decodeRequest_of_cfg ha, hz]

theorem exists_decodeRequest_of_bank {rs : Bool} (ha : decodeAddress p r.addr = .bank rs)
    (hz : r.size = .b8 ∨ r.size = .b16) : ∃ i, decodeRequest p r = .ok i := by
  obtain hz | hz := hz <;> simp [decodeRequest_of_bank ha, hz]

/-- The operands and the direction and size of what is decoded are the request's. -/
theorem decodeRequest_ok_fields (h : decodeRequest p r = .ok i) :
    i.addr = r.addr ∧ i.request.write = r.write ∧ i.request.size = r.size ∧ (r.write = true → i.wdata = r.wdata) := by
  obtain ⟨-, haddr, hwdata⟩ := decodeRequest_ok_opcode h
  have hreq := decodeRequest_ok_request h
  exact ⟨haddr, by rw [hreq], by rw [hreq], fun hw => by rw [hwdata, if_pos hw]⟩

theorem isBank_of_decodeRequest_cfg {k : BitVec 2} (ha : decodeAddress p r.addr = .cfg k)
    (h : decodeRequest p r = .ok i) : i.isBank = false := by
  obtain ⟨hop, -, -⟩ := decodeRequest_ok_opcode h
  rw [Instr.isBank, ← hop, opWord_of_cfg ha, packOp_region]
  rfl

theorem isBank_of_decodeRequest_bank {rs : Bool} (ha : decodeAddress p r.addr = .bank rs)
    (h : decodeRequest p r = .ok i) : i.isBank = true := by
  obtain ⟨hop, -, -⟩ := decodeRequest_ok_opcode h
  rw [Instr.isBank, ← hop, opWord_of_bank ha, packOp_region]
  rfl

/-- R51: bit 0 of an operation word is bit 0 of its `sub` field. -/
theorem packOp_getLsbD_zero (g : BitVec 2) (w : Bool) (z b : BitVec 2) :
    (packOp g w z b).getLsbD 0 = b.getLsbD 0 := by
  simp [packOp]

theorem rsBit_of_decodeRequest_bank {rs : Bool} (ha : decodeAddress p r.addr = .bank rs)
    (h : decodeRequest p r = .ok i) : i.rsBit = rs := by
  obtain ⟨hop, -, -⟩ := decodeRequest_ok_opcode h
  rw [Instr.rsBit, ← hop, opWord_of_bank ha, packOp_getLsbD_zero]
  cases rs <;> rfl

/-- Settles O5: the decoder region by region; what it accepts carries the fields of the request. -/
theorem decoderRejectsByName : Obligations.DecoderRejectsByName := by
  intro p r
  refine ⟨decodeRequest_of_outside, fun k ha => ⟨?_, ?_, ?_⟩, fun rs ha => ⟨?_, ?_⟩⟩
  · intro hz
    rw [decodeRequest_of_cfg ha, if_pos hz]
  · rintro hz rfl
    simp [decodeRequest_of_cfg ha, hz]
  · intro hz hk
    obtain ⟨i, hi⟩ := exists_decodeRequest_of_cfg ha hz hk
    obtain ⟨haddr, hfields⟩ := decodeRequest_ok_fields hi
    exact ⟨i, hi, haddr, isBank_of_decodeRequest_cfg ha hi, hfields⟩
  · intro hz
    obtain hz | hz := hz <;> simp [decodeRequest_of_bank ha, hz]
  · intro hz
    obtain ⟨i, hi⟩ := exists_decodeRequest_of_bank ha hz
    obtain ⟨haddr, hfields⟩ := decodeRequest_ok_fields hi
    exact ⟨i, hi, haddr, isBank_of_decodeRequest_bank ha hi, rsBit_of_decodeRequest_bank ha hi, hfields⟩

end Sys2Proof
end

section
/-! The opcode map and its words (R53). -/

namespace Sys2Proof

/-- R31: the port address of a register-select value is decoded to it. -/
theorem decodeAddress_portAddress {p : Params} (hv : p.Valid) (rs : Bool) :
    decodeAddress p (portAddress p rs) = .bank rs := by
  cases rs
  · exact decodeAddress_commandAddress hv
  · exact decodeAddress_dataAddress hv

/-- The request of a configuration word, at its register's address (log 9). -/
theorem requestOfOp_of_cfg (p : Params) {op : OpWord} (h : op.extractLsb' 5 2 = 0b01#2) :
    requestOfOp p op = some { write := op.getLsbD 4, size := Size.ofBits (op.extractLsb' 2 2),
                              addr := configAddress p (op.extractLsb' 0 2), wdata := 0 } := by
  simp [requestOfOp, h]

/-- The request of a bank word, at the port address of its register-select bit (log 9). -/
theorem requestOfOp_of_bank (p : Params) {op : OpWord} (h : op.extractLsb' 5 2 = 0b10#2) (h1 : op.getLsbD 1 = false) :
    requestOfOp p op = some { write := op.getLsbD 4, size := Size.ofBits (op.extractLsb' 2 2),
                              addr := portAddress p (op.getLsbD 0), wdata := 0 } := by
  simpa [requestOfOp, h] using h1

/-- Under R5 the request chosen for a bare operation word has that operation word. -/
theorem exists_requestOfOp {p : Params} (hv : p.Valid) {op : OpWord} (h : HasRequest op) :
    ∃ r, requestOfOp p op = some r ∧ opWord p r = op ∧ r.wdata = 0 := by
  obtain hcfg | ⟨hbank, hsub⟩ := id h
  · refine ⟨_, requestOfOp_of_cfg p hcfg, (opWord_eq_iff h rfl rfl).mpr ?_, rfl⟩
    simp [regionOfOp, hcfg, decodeAddress_configAddress hv]
  · refine ⟨_, requestOfOp_of_bank p hbank hsub, (opWord_eq_iff h rfl rfl).mpr ?_, rfl⟩
    simp [regionOfOp, hbank, decodeAddress_portAddress hv]

/-- R55: an operation word fits the host's table word of one byte. -/
theorem requestOfTableWord_toNat (p : Params) (op : OpWord) : requestOfTableWord p 8 op.toNat = requestOfOp p op := by
  rw [requestOfTableWord, if_pos ⟨by decide, op.isLt⟩, BitVec.ofNat_toNat, BitVec.setWidth_eq]

/-- Settles O8: each row's word has a request with that operation word, and the row builds its own instruction. -/
theorem everyRowHasARequest : Obligations.EveryRowHasARequest := by
  intro p hv row hrow
  obtain ⟨r, hr, hop, hwdata⟩ := exists_requestOfOp hv (opTable_hasRequest row hrow)
  obtain ⟨-, hbuild⟩ := opTable_row row hrow
  obtain ⟨hopcode, haddr, hbuilt⟩ := hbuild r.addr 0
  have hzero : (row.build r.addr 0).wdata = 0 := by rw [hbuilt, ite_self]
  exact ⟨r, (requestOfTableWord_toNat p _).trans hr, hop,
    decodeRequest_of_opcode (hop.trans hopcode.symm) haddr.symm (hwdata.trans hzero.symm)⟩

/-- R53: every mask is full, so a row is selected by its pattern alone. -/
theorem and_mask_eq_pattern_iff {row : OpRow} (h : row ∈ opTable) (op : OpWord) :
    op &&& row.mask = row.pattern ↔ row.pattern = op := by
  obtain ⟨hmask, -⟩ := opTable_row row h
  have hfull : op &&& row.mask = op := hmask ▸ BitVec.and_allOnes
  rw [hfull, eq_comm]

theorem opTable_patterns_nodup : (opTable.map OpRow.pattern).Nodup := by decide

/-- Settles O2: the selected words are the patterns, and no two rows have one pattern. -/
theorem opcodeMapIsUnambiguous : Obligations.OpcodeMapIsUnambiguous := by
  constructor
  · intro op
    calc (∃ row ∈ opTable, op &&& row.mask = row.pattern)
        ↔ ∃ row ∈ opTable, row.pattern = op :=
          exists_congr fun row => and_congr_right fun h => and_mask_eq_pattern_iff h op
      _ ↔ op ∈ opTable.map OpRow.pattern := List.mem_map.symm
  · intro op row h row' h' hsel hsel'
    rw [and_mask_eq_pattern_iff h] at hsel
    rw [and_mask_eq_pattern_iff h'] at hsel'
    rw [List.inj_on_of_nodup_map opTable_patterns_nodup h h' (hsel.trans hsel'.symm)]

/-- Settles O1: one closed evaluation of the decoder per word. -/
theorem wordsOfTheVectorsDecode : Obligations.WordsOfTheVectorsDecode := by
  unfold Obligations.WordsOfTheVectorsDecode
  decide

end Sys2Proof
end

section
/-! A step serves the presented request (R7, R100). -/

namespace Sys2Proof.Machine

/-- Settles O9: a ready machine serves the presented request, and serving a legal one is running its instruction. -/
theorem stepRunsDecodedInstruction : Obligations.StepRunsDecodedInstruction := by
  intro s r rest i hr hh hi
  rw [step_serve hr hh, serve, hi]
  rfl

end Sys2Proof.Machine
end
